-- ==== Sys2Proof/Word.lean ====
section
/-! DEFINITION. The machine's one word: the byte (R6: `XLEN` = 8 bits, unsigned 0..255), and the size of its memory. -/

namespace Sys2Proof

/-- A byte 0..255: a general register, PC, SP, a memory cell, an operand (R6, R8, R40). -/
abbrev Byte := BitVec 8

/-- `MEM_SIZE`: memory has cells at addresses 0..255 (R6, R30). -/
abbrev memSize : Nat := 256

/-- The register numbers 0..7 of R0..R7 (R6 `NREG`, R13). -/
abbrev Reg := Fin 8

end Sys2Proof
end

