-- ==== Sys2Proof/Config.lean ====
section
/-! DEFINITION. What the spec leaves to a configuration (R7): `SP_INIT`, `SP_MOD`, `OPCODE_MAP`, and the host's open
`FAULT_EXIT_STATUS` (D9). The default bytes of `OPCODE_MAP`, its legal values, and the structure `Config` that holds a legal one
stand in Decode.lean, beside the other encodings. -/

namespace Sys2Proof

/-- The thirteen instructions' names: the whole decode set (R53, R63). -/
inductive Opcode where
  | ldi | add | mul | cmp | prn | push | pop | jmp | jeq | jne | call | ret | hlt
  deriving DecidableEq, Repr

/-- The decode set in the order of the opcode table (R53). -/
def Opcode.all : List Opcode :=
  [.ldi, .add, .mul, .cmp, .prn, .push, .pop, .jmp, .jeq, .jne, .call, .ret, .hlt]

/-- `SP_INIT`: the two values the source names for SP after reset (R7, R21, D3). -/
inductive SpInit where
  | sp244
  | sp255
  deriving DecidableEq, Repr

def SpInit.value : SpInit → Byte
  | .sp244 => 244
  | .sp255 => 255

/-- `OPCODE_MAP`: the bytes of the ten opcodes the source does not number (R7, D2). The other three are fixed (R54). -/
structure OpcodeMap where
  add  : Byte
  mul  : Byte
  cmp  : Byte
  push : Byte
  pop  : Byte
  jmp  : Byte
  jeq  : Byte
  jne  : Byte
  call : Byte
  ret  : Byte
  deriving DecidableEq, Repr

/-- `SP_MOD`: 256 is its only legal value (R7, D4). -/
def Config.spMod : Nat := 256

/-- Free value behind `FAULT_EXIT_STATUS`, which the spec leaves OPEN (D9, U11): nothing is known of it. DESIGN CHOICE (log 14). -/
opaque Config.openExitStatus : Nat

/-- `FAULT_EXIT_STATUS`: some non-zero exit status, which one is open (R125, D9). -/
def Config.faultExitStatus : Nat := Config.openExitStatus + 1

end Sys2Proof
end

