-- ==== Sys2Proof/Syntax.lean ====
section
/-! DEFINITION. The instructions: one constructor for each row of spec/opcode_table.json. An operand is the operand BYTE as
it stands in memory, `a` at `pc + 1` and `b` at `pc + 2` (R11): "Operand bytes are never illegal as encodings", a register
operand above 7 is an error of execution (R57; log 9). -/

namespace Sys2Proof

inductive Instr where
  /-- LDI a,b: load the immediate `b` into register `a` (R86). -/
  | ldi (a b : Byte)
  /-- ADD a,b (R83). -/
  | add (a b : Byte)
  /-- MUL a,b (R84). -/
  | mul (a b : Byte)
  /-- CMP a,b (R85). -/
  | cmp (a b : Byte)
  /-- PRN a (R89). -/
  | prn (a : Byte)
  /-- PUSH a (R87). -/
  | push (a : Byte)
  /-- POP a (R88). -/
  | pop (a : Byte)
  /-- JMP a (R91). -/
  | jmp (a : Byte)
  /-- JEQ a (R92). -/
  | jeq (a : Byte)
  /-- JNE a (R93). -/
  | jne (a : Byte)
  /-- CALL a (R94). -/
  | call (a : Byte)
  /-- RET (R95). -/
  | ret
  /-- HLT (R96). -/
  | hlt
  deriving DecidableEq, Repr

/-- The instruction's name. -/
def Instr.opcode : Instr → Opcode
  | .ldi _ _ => .ldi
  | .add _ _ => .add
  | .mul _ _ => .mul
  | .cmp _ _ => .cmp
  | .prn _   => .prn
  | .push _  => .push
  | .pop _   => .pop
  | .jmp _   => .jmp
  | .jeq _   => .jeq
  | .jne _   => .jne
  | .call _  => .call
  | .ret     => .ret
  | .hlt     => .hlt

/-- The operand bytes, operand a before operand b (R48). -/
def Instr.operands : Instr → List Byte
  | .ldi a b => [a, b]
  | .add a b => [a, b]
  | .mul a b => [a, b]
  | .cmp a b => [a, b]
  | .prn a   => [a]
  | .push a  => [a]
  | .pop a   => [a]
  | .jmp a   => [a]
  | .jeq a   => [a]
  | .jne a   => [a]
  | .call a  => [a]
  | .ret     => []
  | .hlt     => []

/-- The operand bytes that are register operands, operand a before operand b: all but LDI's immediate (R50, R51, R52). -/
def Instr.registerOperands : Instr → List Byte
  | .ldi a _ => [a]
  | .add a b => [a, b]
  | .mul a b => [a, b]
  | .cmp a b => [a, b]
  | .prn a   => [a]
  | .push a  => [a]
  | .pop a   => [a]
  | .jmp a   => [a]
  | .jeq a   => [a]
  | .jne a   => [a]
  | .call a  => [a]
  | .ret     => []
  | .hlt     => []

end Sys2Proof
end

