-- ==== Sys2Proof/WellFormed.lean ====
section
/-! DEFINITION. Well-formed instructions: every register operand names one of R0..R7 (R50). An ill-formed instruction still
decodes and still runs: it raises BadRegister (R57, R66). -/

namespace Sys2Proof

/-- A register operand byte names a register when it is 0..7 (R50). -/
def namesRegister (b : Byte) : Bool := decide (b.toNat ≤ 7)

/-- Every register operand of the instruction names a register. -/
def Instr.wellFormed (i : Instr) : Bool := i.registerOperands.all namesRegister

end Sys2Proof
end

