-- ==== Sys2Proof/Decode.lean ====
section
/-! DEFINITION. The byte encoding of 30_encoding.md: the opcode map, the decoder (total, rejecting by name), the encoder, and
the host's reading of the opcode table's words. -/

namespace Sys2Proof

/-- The default of `OPCODE_MAP`: the LS8 values of R53. PRESUMED: the spec marks these ten bytes as general knowledge (log 2). -/
def OpcodeMap.ls8 : OpcodeMap where
  add  := 0xA0
  mul  := 0xA2
  cmp  := 0xA7
  push := 0x45
  pop  := 0x46
  jmp  := 0x54
  jeq  := 0x55
  jne  := 0x56
  call := 0x50
  ret  := 0x11

/-- The opcode byte of each instruction (R53); LDI, PRN and HLT are the source's own values (R54). -/
def OpcodeMap.byteOf (m : OpcodeMap) : Opcode → Byte
  | .ldi  => 0b10000010
  | .prn  => 0b01000111
  | .hlt  => 0b00000001
  | .add  => m.add
  | .mul  => m.mul
  | .cmp  => m.cmp
  | .push => m.push
  | .pop  => m.pop
  | .jmp  => m.jmp
  | .jeq  => m.jeq
  | .jne  => m.jne
  | .call => m.call
  | .ret  => m.ret

/-- The legal maps: injective, and none of the ten bytes is 0x82, 0x47, 0x01 or 0xFF (R7, R53). A map may assign a byte that
R56 and R127 list as illegal at the default map, 0x00 among them. DESIGN CHOICE: R7 and R53 do not exclude those bytes
(log 19). -/
abbrev OpcodeMap.legal (m : OpcodeMap) : Prop := (0xFF :: Opcode.all.map m.byteOf).Nodup

/-- What the host sends when it constructs the machine (R133); no step changes it. "A model that takes `OPCODE_MAP` as a
parameter must keep the map injective" (R53): a configuration carries the proof that its map is legal, so that no machine has
an illegal one (log 18). -/
structure Config where
  spInit  : SpInit
  opcodes : OpcodeMap
  legal   : opcodes.legal := by decide
  deriving DecidableEq, Repr

/-- The spec's default configuration: `SP_INIT` = 244 and the LS8 opcode bytes (R7; logs 2 and 3). -/
def Config.default : Config where
  spInit  := .sp244
  opcodes := OpcodeMap.ls8

/-- The number of operand bytes an opcode has (R52). -/
def Opcode.operandCount : Opcode → Nat
  | .ldi  => 2
  | .add  => 2
  | .mul  => 2
  | .cmp  => 2
  | .prn  => 1
  | .push => 1
  | .pop  => 1
  | .jmp  => 1
  | .jeq  => 1
  | .jne  => 1
  | .call => 1
  | .ret  => 0
  | .hlt  => 0

/-- The instruction's length in bytes (R48, R52). -/
def Opcode.length (k : Opcode) : Nat := 1 + k.operandCount

/-- The decoder's first half: the whole opcode byte is compared with the thirteen values, and no other byte decodes to
any instruction (R55). -/
def opcodeOf (m : OpcodeMap) (op : Byte) : Option Opcode :=
  Opcode.all.find? (fun k => m.byteOf k == op)

/-- Why bytes are no instruction. -/
inductive Reject where
  /-- The opcode byte is none of the thirteen (R64). -/
  | unknownInstruction
  /-- Operand a is used and there is no byte for it (R65). -/
  | missingOperandA
  /-- Operand b is used and there is no byte for it (R65). -/
  | missingOperandB
  deriving DecidableEq, Repr

/-- An instruction with one operand byte. -/
def oneOperand (mk : Byte → Instr) : List Byte → Except Reject (Instr × List Byte)
  | []        => .error .missingOperandA
  | a :: rest => .ok (mk a, rest)

/-- An instruction with two operand bytes, operand a before operand b (R65). -/
def twoOperands (mk : Byte → Byte → Instr) : List Byte → Except Reject (Instr × List Byte)
  | []             => .error .missingOperandA
  | [_]            => .error .missingOperandB
  | a :: b :: rest => .ok (mk a b, rest)

/-- The operands of a decoded opcode, and the bytes left over (R52, R58). -/
def decodeOperands : Opcode → List Byte → Except Reject (Instr × List Byte)
  | .ldi,  bs => twoOperands .ldi bs
  | .add,  bs => twoOperands .add bs
  | .mul,  bs => twoOperands .mul bs
  | .cmp,  bs => twoOperands .cmp bs
  | .prn,  bs => oneOperand .prn bs
  | .push, bs => oneOperand .push bs
  | .pop,  bs => oneOperand .pop bs
  | .jmp,  bs => oneOperand .jmp bs
  | .jeq,  bs => oneOperand .jeq bs
  | .jne,  bs => oneOperand .jne bs
  | .call, bs => oneOperand .call bs
  | .ret,  bs => .ok (.ret, bs)
  | .hlt,  bs => .ok (.hlt, bs)

/-- The decoder: an opcode byte and the bytes after it (R48, R55, R58). -/
def decode (m : OpcodeMap) (op : Byte) (rest : List Byte) : Except Reject (Instr × List Byte) :=
  match opcodeOf m op with
  | none   => .error .unknownInstruction
  | some k => decodeOperands k rest

/-- The decoder on a byte string: the instruction at its front and the bytes after it, if there is one. -/
def decodeBytes (m : OpcodeMap) : List Byte → Option (Instr × List Byte)
  | []         => none
  | op :: rest =>
    match decode m op rest with
    | .ok r    => some r
    | .error _ => none

/-- The encoding of a written instruction: its opcode byte, then operand a, then operand b (R59). -/
def encode (m : OpcodeMap) (i : Instr) : List Byte := m.byteOf i.opcode :: i.operands

/-- Byte `k` of a word of spec/opcode_table.json: bit 0 is the least significant bit of the first byte, and every bit from
`nbits` up is 0. -/
def tableByte (nbits w k : Nat) : Byte := BitVec.ofNat 8 (w % 2 ^ nbits / 256 ^ k)

/-- The word as the bytes the hardware stores, the first at the lowest address, up to the longest instruction (R40). -/
def tableBytes (nbits w : Nat) : List Byte := [tableByte nbits w 0, tableByte nbits w 1, tableByte nbits w 2]

/-- What the decoder reads from a word of the opcode table, whose bytes are those of the default `OPCODE_MAP`. -/
def decodeTableWord (nbits w : Nat) : Option Instr :=
  (decodeBytes OpcodeMap.ls8 (tableBytes nbits w)).map Prod.fst

end Sys2Proof
end

