-- ==== Sys2Proof/Machine/State.lean ====
section
/-! DEFINITION. The machine's state (10_state.md, with the memory of 20_memory.md), its reset (R116), and the reasons a step
could stop with. -/

namespace Sys2Proof.Machine

/-- The condition flags (R22). -/
structure Flags where
  /-- E, Equal. -/
  e : Bool
  /-- G, Greater. -/
  g : Bool
  /-- L, Less. -/
  l : Bool
  deriving DecidableEq, Repr

/-- The run state (R23). -/
inductive RunState where
  | running
  | halted
  | faulted
  deriving DecidableEq, Repr

/-- The spec's fault kinds (R97); the kind "none" is an empty fault record. -/
inductive FaultKind where
  /-- The opcode byte is none of the thirteen (R98). -/
  | unknownInstruction
  /-- An address above 255 is needed (R99). -/
  | outOfBounds
  /-- The ALU select is `other` (R100); no instruction raises it. -/
  | unsupportedOperation
  /-- A register operand byte is above 7 (R101). -/
  | badRegister
  /-- The program file is missing or unreadable (R102); the host's, before the first step. -/
  | loadError
  deriving DecidableEq, Repr

/-- The fault record (R24). -/
structure FaultRecord where
  kind   : FaultKind
  /-- The address of the faulting instruction's opcode byte. -/
  pc     : Byte
  /-- The byte fetched at that address. -/
  opcode : Byte
  /-- The out-of-range address, the offending operand byte, or 0. -/
  addr   : Nat
  deriving DecidableEq, Repr

/-- Memory as a canonical list of cells: addresses rising, none listed with the value an unlisted address has. -/
abbrev Memory := List Host.Cell

/-- The machine's state, and the configuration it was constructed with. -/
structure State where
  /-- R0..R7 (R13). -/
  regs        : Vector Byte 8
  /-- The program counter (R17). -/
  pc          : Byte
  /-- The stack pointer (R21). -/
  sp          : Byte
  /-- E, G and L (R22). -/
  flags       : Flags
  /-- Running, Halted or Faulted (R23). -/
  runState    : RunState
  /-- The fault record, `none` when empty (R24). -/
  faultRecord : Option FaultRecord
  /-- The output trace, first byte emitted first (R25). -/
  out         : List Byte
  /-- The 256 cells behind the memory port (R30). -/
  mem         : Memory
  /-- `SP_INIT` and `OPCODE_MAP`, fixed at construction (R7, R133). DESIGN CHOICE: held in State (log 1). -/
  config      : Config
  deriving DecidableEq, Repr

/-- Reasons to answer `.fault`: there are none. Every fault of the spec is a state the machine enters (R104): the run state
Faulted with its record. Safe (log 6). -/
inductive Fault where
  deriving DecidableEq, Repr

/-- Reasons to refuse. -/
inductive Refusal where
  /-- Raised by an arm of `exec` whose instruction has no meaning yet; no arm is such an arm. Safe. -/
  | notModelled (mnemonic : String)
  deriving DecidableEq, Repr

/-- The machine as it is constructed with a configuration: every value is the one R116 states. -/
def State.construct (c : Config) : State where
  regs        := Vector.replicate 8 0
  pc          := 0
  sp          := c.spInit.value
  flags       := ⟨false, false, false⟩
  runState    := .running
  faultRecord := none
  out         := []
  mem         := []
  config      := c

/-- The machine right after reset, at the spec's default configuration (R116, R7; logs 2 and 3). -/
def State.reset : State := State.construct Config.default

end Sys2Proof.Machine
end

