-- ==== Sys2Proof/Machine/Flags.lean ====
section
/-! DEFINITION. The flag computations: the comparison (R76), which is the only one the hardware has, and the flags as a
byte (R27). -/

namespace Sys2Proof.Machine

/-- The flags CMP computes: unsigned comparison, each flag 1 when true and 0 when false (R76). -/
def compareFlags (x y : Byte) : Flags where
  e := decide (x.toNat = y.toNat)
  g := decide (x.toNat > y.toNat)
  l := decide (x.toNat < y.toNat)

/-- A flag's value as a number. -/
def bit (b : Bool) : Nat := if b then 1 else 0

/-- The flags as the status port's byte `0b00000LGE` (R27). -/
def flagsByte (f : Flags) : Byte := BitVec.ofNat 8 (bit f.e + 2 * bit f.g + 4 * bit f.l)

end Sys2Proof.Machine
end

