-- ==== Sys2Proof/Machine/Ops.lean ====
section
/-! DEFINITION. The named operations over the state: memory (20_memory.md), registers, the stack, output, halting, taking a
fault (R104), the sequential next PC (R70), and fetching an instruction's bytes (R62, R65). -/

namespace Sys2Proof.Machine

/-! ### Memory -/

/-- What an unlisted address reads as: every cell is 0 at reset (R30, R116). -/
def unlistedByte : Byte := 0

/-- The byte in a cell. -/
def Memory.cell : Memory → Nat → Byte
  | [], _ => unlistedByte
  | (a, v) :: rest, addr => if a = addr then v else Memory.cell rest addr

/-- Set a cell, keeping the canonical form. -/
def Memory.set : Memory → Nat → Byte → Memory
  | [], addr, v => if v = unlistedByte then [] else [(addr, v)]
  | (a, w) :: rest, addr, v =>
    if addr < a then
      if v = unlistedByte then (a, w) :: rest else (addr, v) :: (a, w) :: rest
    else if addr = a then
      if v = unlistedByte then rest else (addr, v) :: rest
    else (a, w) :: Memory.set rest addr v

/-- The canonical form: addresses strictly rising and inside memory, no cell listed with the value of an unlisted one. -/
abbrev Memory.wf (m : Memory) : Prop :=
  m.Pairwise (fun c d => c.1 < d.1) ∧ ∀ c ∈ m, c.1 < memSize ∧ c.2 ≠ unlistedByte

/-- `MemRead(addr, 1)`: the byte in the cell, or `none` where it raises OutOfBounds (R33). -/
def memRead (m : Memory) (addr : Nat) : Option Byte :=
  if addr > 255 then none else some (m.cell addr)

/-- `MemWrite(addr, 1, v)`: memory with the cell set, or `none` where it raises OutOfBounds (R34). -/
def memWrite (m : Memory) (addr : Nat) (v : Byte) : Option Memory :=
  if addr > 255 then none else some (m.set addr v)

/-! ### Registers, PC, SP, flags -/

/-- `R[i]` (R9). -/
def readReg (s : State) (r : Reg) : Byte := s.regs[r.val]

/-- `R[i] <- v` (R9): no register is hard-wired and none has an alias (R13). -/
def writeReg (s : State) (r : Reg) (v : Byte) : State := { s with regs := s.regs.set r.val v r.isLt }

/-- `pc <- target`: a target is a byte, so it never leaves memory (R70). -/
def setPc (s : State) (target : Byte) : State := { s with pc := target }

/-- `sp <- v`. -/
def setSp (s : State) (v : Byte) : State := { s with sp := v }

/-- `FL.E, FL.G, FL.L <- ...`: only CMP does this (R22). -/
def setFlags (s : State) (f : Flags) : State := { s with flags := f }

/-- A cell written at an address that is a byte: such a write never raises OutOfBounds (R34). -/
def storeByte (s : State) (addr : Byte) (v : Byte) : State := { s with mem := s.mem.set addr.toNat v }

/-- A cell read at an address that is a byte: such a read never raises OutOfBounds (R33). -/
def loadByte (s : State) (addr : Byte) : Byte := s.mem.cell addr.toNat

/-- `Out(v)`: append a byte to the output trace (R25, R89). -/
def emit (s : State) (v : Byte) : State := { s with out := s.out ++ [v] }

/-- `halt`: the run state becomes Halted and PC keeps the address of the HLT (R96). -/
def haltRun (s : State) : State := { s with runState := .halted }

/-! ### Faults: taking one. There is no return from one (R106) -/

/-- `raise F(info)`, the fault entry (R104): the run state becomes Faulted, the record is written with PC as it stands (the
address of the faulting instruction) and the opcode byte that was fetched, and nothing else changes. -/
def raise (kind : FaultKind) (opcode : Byte) (addr : Nat) (s : State) : State :=
  { s with
    runState    := .faulted
    faultRecord := some ⟨kind, s.pc, opcode, addr⟩ }

/-- The opcode byte of the running instruction, as it was fetched (R104; log 8): an instruction that overwrites its own first
byte still records the byte it was fetched as. -/
def opcodeByte (s : State) (k : Opcode) : Byte := s.config.opcodes.byteOf k

/-! ### The sequential next instruction -/

/-- `SeqNext(n)` for the running instruction `k` (R70): PC advances, or OutOfBounds is raised with the effects made so far
kept and PC at the instruction (R71). -/
def seqNext (k : Opcode) (n : Nat) (s : State) : State :=
  if s.pc.toNat + n > 255 then raise .outOfBounds (opcodeByte s k) (s.pc.toNat + n) s
  else setPc s (BitVec.ofNat 8 (s.pc.toNat + n))

/-! ### The stack -/

/-- `(sp - 1) mod SP_MOD`: where a push stores (R37). -/
def spDown (sp : Byte) : Byte := BitVec.ofNat 8 ((sp.toNat + (Config.spMod - 1)) % Config.spMod)

/-- `(sp + 1) mod SP_MOD`: where SP stands after a pop (R38). -/
def spUp (sp : Byte) : Byte := BitVec.ofNat 8 ((sp.toNat + 1) % Config.spMod)

/-- `Push(v)`: SP moves down first, then the byte is written at the new SP (R37). -/
def pushByte (s : State) (v : Byte) : State := storeByte (setSp s (spDown s.sp)) (spDown s.sp) v

/-- The byte `Pop()` returns: the one at SP (R38). -/
def poppedByte (s : State) : Byte := loadByte s s.sp

/-- The state `Pop()` leaves: SP moved up, the popped cell unchanged (R38, R88). -/
def popSp (s : State) : State := setSp s (spUp s.sp)

/-! ### Fetch -/

/-- `op <- MemRead(pc, 1)`, which never raises OutOfBounds (R62). -/
def fetchOpcode (s : State) : Byte := loadByte s s.pc

/-- Up to `n` bytes from an address on, ending before the first address that MemRead would raise OutOfBounds at: fetch
addresses never wrap (R35). -/
def readFrom (m : Memory) (addr : Nat) : Nat → List Byte
  | 0     => []
  | n + 1 =>
    match memRead m addr with
    | none   => []
    | some b => b :: readFrom m (addr + 1) n

/-- The operand bytes the fetched opcode uses, those that exist: an unused operand byte is not read (R36, R65). -/
def fetchOperands (s : State) : List Byte :=
  match opcodeOf s.config.opcodes (fetchOpcode s) with
  | none   => []
  | some k => readFrom s.mem (s.pc.toNat + 1) k.operandCount

/-- Fetch and decode the instruction at PC (R62 to R65). -/
def fetchDecode (s : State) : Except Reject (Instr × List Byte) :=
  decode s.config.opcodes (fetchOpcode s) (fetchOperands s)

/-- The fault a step raises when the bytes at PC are no instruction: UnknownInstruction (R64), or OutOfBounds at the address
of the first used operand byte that does not exist (R65). -/
def raiseReject (r : Reject) (s : State) : State :=
  match r with
  | .unknownInstruction => raise .unknownInstruction (fetchOpcode s) 0 s
  | .missingOperandA    => raise .outOfBounds (fetchOpcode s) (s.pc.toNat + 1) s
  | .missingOperandB    => raise .outOfBounds (fetchOpcode s) (s.pc.toNat + 2) s

/-- Bytes stored from an address on, those whose address exists. -/
def storeFrom (m : Memory) (addr : Nat) : List Byte → Memory
  | []        => m
  | b :: rest =>
    match memWrite m addr b with
    | none    => m
    | some m' => storeFrom m' (addr + 1) rest

end Sys2Proof.Machine
end

