-- ==== Sys2Proof/Machine/Operands.lean ====
section
/-! DEFINITION. The operand forms (R50): a register operand, checked before the instruction has any effect (R66). LDI's
immediate is the operand byte as it stands (R51) and needs no operation. -/

namespace Sys2Proof.Machine

/-- The register a register operand byte names: 0..7 name R0..R7, 8..255 name none (R50). -/
def regOf (b : Byte) : Option Reg :=
  if h : b.toNat < 8 then some ⟨b.toNat, h⟩ else none

/-- The operand byte that names a register. -/
def regByte (r : Reg) : Byte := BitVec.ofNat 8 r.val

/-- Check a register operand of the running instruction `k`, and go on with the register it names; a byte above 7 raises
BadRegister with that byte, and nothing else changes (R66). -/
def withReg (k : Opcode) (b : Byte) (s : State) (go : Reg → State) : State :=
  match regOf b with
  | none   => raise .badRegister (opcodeByte s k) b.toNat s
  | some r => go r

/-- Check two register operands, operand a before operand b (R66, R103). -/
def withRegs (k : Opcode) (a b : Byte) (s : State) (go : Reg → Reg → State) : State :=
  withReg k a s fun ra => withReg k b s fun rb => go ra rb

end Sys2Proof.Machine
end

