-- ==== Sys2Proof/Machine/Alu.lean ====
section
/-! DEFINITION. The ALU (41_alu.md): its function of a select and two bytes, the datapath an instruction drives it through,
and the instructions ADD, MUL and CMP. -/

namespace Sys2Proof.Machine

/-- The operation select: the eight named operations and `other` (R73, D24). -/
inductive AluSelect where
  | add | mul | cmp | and | or | xor | not | nop | other
  deriving DecidableEq, Repr

/-- What the ALU returns (R73). -/
inductive AluResult where
  /-- A result byte; no flag is written. -/
  | result (v : Byte)
  /-- New values of the three flags; no result byte. -/
  | flags (f : Flags)
  /-- The fault UnsupportedOperation (R82). -/
  | unsupported
  deriving DecidableEq, Repr

/-- The ALU function `alu(op, x, y)` (R73 to R82). The arithmetic is exact on numbers and reduced modulo 256. -/
def alu (op : AluSelect) (x y : Byte) : AluResult :=
  match op with
  | .add   => .result (BitVec.ofNat 8 ((x.toNat + y.toNat) % 256))
  | .mul   => .result (BitVec.ofNat 8 ((x.toNat * y.toNat) % 256))
  | .cmp   => .flags (compareFlags x y)
  | .and   => .result (x &&& y)
  | .or    => .result (x ||| y)
  | .xor   => .result (x ^^^ y)
  | .not   => .result (BitVec.ofNat 8 (255 - y.toNat))
  | .nop   => .result 0
  | .other => .unsupported

/-- Drive the ALU from instruction `k` with the registers `ra` and `rb`, both read before anything is written (R68): a result
goes to `ra`, flags go to the flag register, and UnsupportedOperation is raised with `addr` = 0 (R73, R100). Then go on. -/
def throughAlu (k : Opcode) (op : AluSelect) (ra rb : Reg) (s : State) (go : State → State) : State :=
  match alu op (readReg s ra) (readReg s rb) with
  | .result v    => go (writeReg s ra v)
  | .flags f     => go (setFlags s f)
  | .unsupported => raise .unsupportedOperation (opcodeByte s k) 0 s

/-- ADD a,b (R83). -/
def execAdd (a b : Byte) (s : State) : Host.Outcome State Fault Refusal :=
  .next (withRegs .add a b s fun ra rb => throughAlu .add .add ra rb s (seqNext .add 3))

/-- MUL a,b (R84). -/
def execMul (a b : Byte) (s : State) : Host.Outcome State Fault Refusal :=
  .next (withRegs .mul a b s fun ra rb => throughAlu .mul .mul ra rb s (seqNext .mul 3))

/-- CMP a,b (R85). -/
def execCmp (a b : Byte) (s : State) : Host.Outcome State Fault Refusal :=
  .next (withRegs .cmp a b s fun ra rb => throughAlu .cmp .cmp ra rb s (seqNext .cmp 3))

end Sys2Proof.Machine
end

