-- ==== Sys2Proof/Machine/ControlFlow.lean ====
section
/-! DEFINITION. Control flow and halt: JMP, JEQ, JNE, CALL, RET, HLT (44_control_flow.md). -/

namespace Sys2Proof.Machine

/-- JMP a: `pc <- R[a]` (R91). -/
def execJmp (a : Byte) (s : State) : Host.Outcome State Fault Refusal :=
  .next (withReg .jmp a s fun ra => setPc s (readReg s ra))

/-- JEQ a: jump when E is 1 (R92). -/
def execJeq (a : Byte) (s : State) : Host.Outcome State Fault Refusal :=
  .next (withReg .jeq a s fun ra => if s.flags.e then setPc s (readReg s ra) else seqNext .jeq 2 s)

/-- JNE a: jump when E is 0 (R93). -/
def execJne (a : Byte) (s : State) : Host.Outcome State Fault Refusal :=
  .next (withReg .jne a s fun ra => if s.flags.e then seqNext .jne 2 s else setPc s (readReg s ra))

/-- CALL a: the return address `pc + 2` must fit a byte, else OutOfBounds before anything changes; the target is read before
the push (R94). -/
def execCall (a : Byte) (s : State) : Host.Outcome State Fault Refusal :=
  .next (withReg .call a s fun ra =>
    if s.pc.toNat + 2 > 255 then raise .outOfBounds (opcodeByte s .call) (s.pc.toNat + 2) s
    else setPc (pushByte s (BitVec.ofNat 8 (s.pc.toNat + 2))) (readReg s ra))

/-- RET: `pc <- Pop()`; it uses no operand and never faults (R95). -/
def execRet (s : State) : Host.Outcome State Fault Refusal :=
  .next (setPc (popSp s) (poppedByte s))

/-- HLT: the run state becomes Halted and nothing else changes (R96). -/
def execHlt (s : State) : Host.Outcome State Fault Refusal :=
  .next (haltRun s)

end Sys2Proof.Machine
end

