-- ==== Sys2Proof/Machine/Output.lean ====
section
/-! DEFINITION. The output instruction PRN (43_output.md). -/

namespace Sys2Proof.Machine

/-- PRN a: `Out(R[a])`; the byte is emitted before SeqNext can fault (R89). -/
def execPrn (a : Byte) (s : State) : Host.Outcome State Fault Refusal :=
  .next (withReg .prn a s fun ra => seqNext .prn 2 (emit s (readReg s ra)))

end Sys2Proof.Machine
end

