-- ==== Sys2Proof/Machine/RegisterStack.lean ====
section
/-! DEFINITION. The register and stack instructions LDI, PUSH and POP (42_register_stack.md). -/

namespace Sys2Proof.Machine

/-- LDI a,b: `R[a] <- b`; the immediate is not checked and not extended (R51, R86). -/
def execLdi (a b : Byte) (s : State) : Host.Outcome State Fault Refusal :=
  .next (withReg .ldi a s fun ra => seqNext .ldi 3 (writeReg s ra b))

/-- PUSH a: the register is read, SP moves down, the byte is stored at the new SP (R87). -/
def execPush (a : Byte) (s : State) : Host.Outcome State Fault Refusal :=
  .next (withReg .push a s fun ra => seqNext .push 2 (pushByte s (readReg s ra)))

/-- POP a: the byte at SP is read, SP moves up, the register is written (R88). -/
def execPop (a : Byte) (s : State) : Host.Outcome State Fault Refusal :=
  .next (withReg .pop a s fun ra => seqNext .pop 2 (writeReg (popSp s) ra (poppedByte s)))

end Sys2Proof.Machine
end

