-- ==== Sys2Proof/Machine/Step.lean ====
section
/-! DEFINITION. One step of the machine (R69), and the host's way to place one instruction where the step fetches. -/

namespace Sys2Proof.Machine

/-- One step (R69): nothing when the machine has stopped (R10, R61; log 5), else fetch, decode and dispatch, or the fault the
fetch raises. -/
def step (s : State) : Host.Outcome State Fault Refusal :=
  match s.runState with
  | .running =>
    match fetchDecode s with
    | .ok (i, _) => exec i s
    | .error r   => .next (raiseReject r s)
  | .halted  => .next s
  | .faulted => .next s

/-- The state with the instruction of an opcode-table word stored at PC, so that the next step runs it; it stands for the load
of R119, and a stopped machine is set running, since only a running one fetches (log 11). -/
def State.withFetchWord (s : State) (nbits w : Nat) : State :=
  { s with
    mem         := storeFrom s.mem s.pc.toNat (tableBytes nbits w)
    runState    := .running
    faultRecord := none }

end Sys2Proof.Machine
end

