-- ==== Sys2Proof/Machine/HostSide.lean ====
section
/-! DEFINITION. The host's side of the block: loading a program (R119 to R122), the status port (R29, R105), the output port's
text (R124) and the exit status (R125). No step calls any of it. -/

namespace Sys2Proof.Machine

/-- The outcome of a load. A failed load gives no state: no step runs after it (R121, R122; log 13). -/
inductive LoadResult where
  /-- The state whose next step is the program's first instruction. -/
  | ready (s : State)
  /-- The load failed with a fault kind and the out-of-range address (0 for LoadError). -/
  | failed (kind : FaultKind) (addr : Nat)
  deriving DecidableEq, Repr

/-- Write the bytes from address `k` on through MemWrite; the first address that does not exist fails the load (R119, R121). -/
def loadFrom : List Byte → Nat → State → LoadResult
  | [], _, s => .ready s
  | b :: rest, k, s =>
    match memWrite s.mem k b with
    | none     => .failed .outOfBounds k
    | some mem => loadFrom rest (k + 1) { s with mem := mem }

/-- Load a program image: byte `k` goes to address `k` (R119). -/
def loadImage (image : List Byte) (s : State) : LoadResult := loadFrom image 0 s

/-! ### The program text (R120) -/

/-- One line of program text, read. -/
inductive LineResult where
  | skip
  | byte (b : Byte)
  /-- More than eight binary digits: a LoadError (D25). -/
  | badLiteral
  deriving DecidableEq, Repr

/-- Drop a comment: from the first `#` to the line end. -/
def dropComment (line : List Char) : List Char := line.takeWhile (fun c => c != '#')

/-- Whitespace, as the loader trims it. PRESUMED: the spec names no set (log 12). -/
def isSpace (c : Char) : Bool := c == ' ' || c == '\t' || c == '\r' || c == '\x0b' || c == '\x0c'

/-- Trim whitespace at both ends. -/
def trim (line : List Char) : List Char := ((line.dropWhile isSpace).reverse.dropWhile isSpace).reverse

def isBinaryDigit (c : Char) : Bool := c == '0' || c == '1'

/-- A string of binary digits as a number, most significant digit first. -/
def binaryValue (digits : List Char) : Nat := digits.foldl (fun n c => 2 * n + (if c == '1' then 1 else 0)) 0

/-- Read a line: skipped when empty or not all binary digits, a byte when it has 1 to 8 of them (R120, D25). -/
def parseLine (line : List Char) : LineResult :=
  let digits := trim (dropComment line)
  if digits.isEmpty || !digits.all isBinaryDigit then .skip
  else if digits.length ≤ 8 then .byte (BitVec.ofNat 8 (binaryValue digits))
  else .badLiteral

/-- The program image of the lines, in file order; `none` is a LoadError (R120). -/
def parseLines : List (List Char) → Option (List Byte)
  | [] => some []
  | line :: rest =>
    match parseLine line with
    | .skip       => parseLines rest
    | .byte b     => (parseLines rest).map (fun image => b :: image)
    | .badLiteral => none

/-- The lines of a text, a newline ending each. PRESUMED (log 12). -/
def splitLines : List Char → List (List Char)
  | [] => [[]]
  | c :: rest =>
    if c == '\n' then [] :: splitLines rest
    else
      match splitLines rest with
      | []            => [[c]]
      | line :: lines => (c :: line) :: lines

/-- The program image of a program text (R120). -/
def parseText (text : List Char) : Option (List Byte) := parseLines (splitLines text)

/-- Construct the machine and load the program file, `none` being a missing or unreadable file (R122, R133). The whole text is
read before the first byte is written: a text with a bad literal is a LoadError even where its good lines are more than fit.
DESIGN CHOICE: R120 to R122 give the two failures no order (log 20). -/
def hostLoad (c : Config) (file : Option (List Char)) : LoadResult :=
  match file.bind parseText with
  | none       => .failed .loadError 0
  | some image => loadImage image (State.construct c)

/-- A LoadError shown at the status port, if the host chooses to show it: Faulted, with `pc`, `opcode` and `addr` 0 (R102, D16). -/
def showLoadError (c : Config) : State := raise .loadError 0 0 (State.construct c)

/-! ### What the host sees -/

/-- The fault codes (R97, D9). -/
def FaultKind.code : FaultKind → Nat
  | .unknownInstruction   => 1
  | .outOfBounds          => 2
  | .unsupportedOperation => 3
  | .badRegister          => 4
  | .loadError            => 5

/-- The code of a fault record; an empty one has the kind "none", code 0 (R97). -/
def faultCode : Option FaultRecord → Nat
  | none   => 0
  | some r => r.kind.code

/-- What the status port presents (R29, R105). -/
structure Status where
  runState    : RunState
  code        : Nat
  faultRecord : Option FaultRecord
  regs        : Vector Byte 8
  pc          : Byte
  sp          : Byte
  flags       : Byte
  deriving DecidableEq, Repr

/-- The status port (R29, R105), the flags in the layout of R27. -/
def statusPort (s : State) : Status where
  runState    := s.runState
  code        := faultCode s.faultRecord
  faultRecord := s.faultRecord
  regs        := s.regs
  pc          := s.pc
  sp          := s.sp
  flags       := flagsByte s.flags

/-- The lines the host prints: each output byte's decimal value, in the order emitted (R124). -/
def hostLines (out : List Byte) : List (List Char) := out.map (fun v => Nat.toDigits 10 v.toNat)

/-- The exit status of a run that has ended: 0 when Halted, some non-zero value when Faulted (R125, R134). -/
def exitStatus (s : State) : Option Nat :=
  match s.runState with
  | .running => none
  | .halted  => some 0
  | .faulted => some Config.faultExitStatus

/-- The exit status of a load: none while the program is still to run, non-zero when the load failed (R125). -/
def loadExitStatus : LoadResult → Option Nat
  | .ready _    => none
  | .failed _ _ => some Config.faultExitStatus

end Sys2Proof.Machine
end

