-- ==== Sys2Proof/Safety.lean ====
section
/-! DEFINITION. The terms the statements are written in: the invariant of a running machine, how a run ends, and what an
instruction leaves unchanged (its frame). -/

namespace Sys2Proof.Machine

/-! ### How a run ends (R128) -/

/-- A clean end (R128). -/
abbrev State.cleanEnd (s : State) : Prop := s.runState = .halted

/-- A failed end (R128). -/
abbrev State.failedEnd (s : State) : Prop := s.runState = .faulted

/-- The run has ended (R128). -/
abbrev State.stopped (s : State) : Prop := s.cleanEnd ∨ s.failedEnd

/-! ### The invariant -/

/-- At most one flag is set: none before the first CMP, exactly one after it (R22). -/
abbrev Flags.atMostOne (f : Flags) : Prop := bit f.e + bit f.g + bit f.l ≤ 1

/-- What the fault record of a machine that stopped at `pc` can hold (R24, R98 to R102). -/
def FaultRecord.consistent (m : OpcodeMap) (pc : Byte) (r : FaultRecord) : Prop :=
  r.pc = pc ∧
  match r.kind with
  | .unknownInstruction   => r.addr = 0 ∧ opcodeOf m r.opcode = none
  | .outOfBounds          => r.addr = memSize ∧ (opcodeOf m r.opcode).isSome = true
  | .unsupportedOperation => False
  | .badRegister          => 8 ≤ r.addr ∧ r.addr ≤ 255 ∧ (opcodeOf m r.opcode).isSome = true
  | .loadError            => r.pc = 0 ∧ r.opcode = 0 ∧ r.addr = 0

/-- The machine's invariant: memory is canonical, at most one flag is set, and the fault record is empty except in Faulted,
where it describes the instruction at PC (R22, R24, R30, R104). -/
structure State.Inv (s : State) : Prop where
  memory  : s.mem.wf
  flags   : s.flags.atMostOne
  empty   : s.runState ≠ .faulted → s.faultRecord = none
  written : s.runState = .faulted → ∃ r, s.faultRecord = some r ∧ r.consistent s.config.opcodes s.pc

/-! ### Frames -/

/-- Every byte of memory reads as before. -/
abbrev KeepsMemory (s t : State) : Prop := ∀ addr, t.mem.cell addr = s.mem.cell addr

/-- Every byte of memory outside one address reads as before. -/
abbrev KeepsMemoryExcept (a : Byte) (s t : State) : Prop := ∀ addr, addr ≠ a.toNat → t.mem.cell addr = s.mem.cell addr

/-- Every register keeps its value. -/
abbrev KeepsRegs (s t : State) : Prop := ∀ r, readReg t r = readReg s r

/-- Every register but one keeps its value. -/
abbrev KeepsRegsExcept (d : Reg) (s t : State) : Prop := ∀ r, r ≠ d → readReg t r = readReg s r

/-- The run state, the fault record and the configuration are unchanged. -/
abbrev KeepsControl (s t : State) : Prop :=
  t.runState = s.runState ∧ t.faultRecord = s.faultRecord ∧ t.config = s.config

/-- The state a fault leaves when the instruction has changed nothing (R104): only the run state and the record differ. -/
def faultedAs (s : State) (kind : FaultKind) (opcode : Byte) (addr : Nat) : State :=
  { s with runState := .faulted, faultRecord := some ⟨kind, s.pc, opcode, addr⟩ }

/-- The opcode byte at PC. -/
abbrev State.opcodeAtPc (s : State) : Byte := s.mem.cell s.pc.toNat

/-- The instruction name the opcode byte at PC has, if it has one. -/
abbrev State.nameAtPc (s : State) : Option Opcode := opcodeOf s.config.opcodes s.opcodeAtPc

/-! ### Fetching what was stored -/

/-- The next step's instruction is made of the byte `v` wherever it uses the cell `addr` (R46): with `addr` at PC, `v` is the
opcode byte, which faults when it is none of the thirteen and else names the instruction executed; with `addr` at an operand
byte the opcode at PC uses, `v` is that operand of the instruction executed. -/
def NextStepUses (t : State) (addr : Nat) (v : Byte) : Prop :=
  (t.pc.toNat = addr →
    ((∀ k, t.config.opcodes.byteOf k ≠ v) → step t = .next (faultedAs t .unknownInstruction v 0)) ∧
    (∀ k, t.config.opcodes.byteOf k = v → t.pc.toNat + k.operandCount ≤ 255 →
      ∃ i : Instr, i.opcode = k ∧ step t = exec i t)) ∧
  (∀ (k : Opcode) (j : Nat), t.nameAtPc = some k → t.pc.toNat + k.operandCount ≤ 255 → j < k.operandCount →
    t.pc.toNat + 1 + j = addr →
    ∃ i : Instr, i.opcode = k ∧ step t = exec i t ∧ i.operands[j]? = some v)

end Sys2Proof.Machine
end

