-- ==== Sys2Proof/Certificates/Slice0/Obligations.lean ====
section
/-! DEFINITION. The statements about the machine, for the provers: what each instruction does and leaves unchanged, faults,
encoding, the ALU, memory, the host's side, and the rules that hold of the whole machine. Titles, rules and quotes are in
OBLIGATIONS.json. -/

open Sys2Proof Sys2Proof.Machine

/-! ### Each instruction completes with its effect, and its frame -/

/-- LDI (42_register_stack.md, R86). -/
def Obligations.LdiLoadsTheImmediate : Prop :=
  ∀ (s : State) (ra : Reg) (b : Byte), s.pc.toNat ≤ 252 →
    ∃ t, exec (.ldi (regByte ra) b) s = .next t ∧
      readReg t ra = b ∧ t.pc.toNat = s.pc.toNat + 3 ∧
      KeepsRegsExcept ra s t ∧ t.sp = s.sp ∧ t.flags = s.flags ∧ t.out = s.out ∧ KeepsMemory s t ∧ KeepsControl s t

/-- ADD (41_alu.md, R83): both operands are read before the destination is written, so `ra = rb` doubles. -/
def Obligations.AddWritesTheSumModulo256 : Prop :=
  ∀ (s : State) (ra rb : Reg), s.pc.toNat ≤ 252 →
    ∃ t, exec (.add (regByte ra) (regByte rb)) s = .next t ∧
      (readReg t ra).toNat = ((readReg s ra).toNat + (readReg s rb).toNat) % 256 ∧ t.pc.toNat = s.pc.toNat + 3 ∧
      KeepsRegsExcept ra s t ∧ t.sp = s.sp ∧ t.flags = s.flags ∧ t.out = s.out ∧ KeepsMemory s t ∧ KeepsControl s t

/-- MUL (41_alu.md, R84). -/
def Obligations.MulWritesTheProductModulo256 : Prop :=
  ∀ (s : State) (ra rb : Reg), s.pc.toNat ≤ 252 →
    ∃ t, exec (.mul (regByte ra) (regByte rb)) s = .next t ∧
      (readReg t ra).toNat = ((readReg s ra).toNat * (readReg s rb).toNat) % 256 ∧ t.pc.toNat = s.pc.toNat + 3 ∧
      KeepsRegsExcept ra s t ∧ t.sp = s.sp ∧ t.flags = s.flags ∧ t.out = s.out ∧ KeepsMemory s t ∧ KeepsControl s t

/-- CMP (41_alu.md, R85): the flags compare the registers as unsigned numbers, and exactly one is set. -/
def Obligations.CmpSetsExactlyOneFlag : Prop :=
  ∀ (s : State) (ra rb : Reg), s.pc.toNat ≤ 252 →
    ∃ t, exec (.cmp (regByte ra) (regByte rb)) s = .next t ∧
      (t.flags.e = true ↔ (readReg s ra).toNat = (readReg s rb).toNat) ∧
      (t.flags.g = true ↔ (readReg s rb).toNat < (readReg s ra).toNat) ∧
      (t.flags.l = true ↔ (readReg s ra).toNat < (readReg s rb).toNat) ∧
      bit t.flags.e + bit t.flags.g + bit t.flags.l = 1 ∧ t.pc.toNat = s.pc.toNat + 3 ∧
      KeepsRegs s t ∧ t.sp = s.sp ∧ t.out = s.out ∧ KeepsMemory s t ∧ KeepsControl s t

/-- PRN (43_output.md, R89). -/
def Obligations.PrnAppendsTheRegister : Prop :=
  ∀ (s : State) (ra : Reg), s.pc.toNat ≤ 253 →
    ∃ t, exec (.prn (regByte ra)) s = .next t ∧
      t.out = s.out ++ [readReg s ra] ∧ t.pc.toNat = s.pc.toNat + 2 ∧
      KeepsRegs s t ∧ t.sp = s.sp ∧ t.flags = s.flags ∧ KeepsMemory s t ∧ KeepsControl s t

/-- PUSH (42_register_stack.md, R87): the byte goes to the new SP and to no other cell. -/
def Obligations.PushStoresBelowTheStack : Prop :=
  ∀ (s : State) (ra : Reg), s.mem.wf → s.pc.toNat ≤ 253 →
    ∃ t, exec (.push (regByte ra)) s = .next t ∧
      t.sp = spDown s.sp ∧ t.mem.cell (spDown s.sp).toNat = readReg s ra ∧ KeepsMemoryExcept (spDown s.sp) s t ∧
      t.pc.toNat = s.pc.toNat + 2 ∧ KeepsRegs s t ∧ t.flags = s.flags ∧ t.out = s.out ∧ KeepsControl s t

/-- POP (42_register_stack.md, R88): the popped cell keeps its value. -/
def Obligations.PopLoadsTheTopOfTheStack : Prop :=
  ∀ (s : State) (ra : Reg), s.pc.toNat ≤ 253 →
    ∃ t, exec (.pop (regByte ra)) s = .next t ∧
      readReg t ra = s.mem.cell s.sp.toNat ∧ t.sp = spUp s.sp ∧ t.pc.toNat = s.pc.toNat + 2 ∧
      KeepsRegsExcept ra s t ∧ t.flags = s.flags ∧ t.out = s.out ∧ KeepsMemory s t ∧ KeepsControl s t

/-- JMP (44_control_flow.md, R91): at every address, 254 and 255 too. -/
def Obligations.JmpGoesToTheRegister : Prop :=
  ∀ (s : State) (ra : Reg),
    ∃ t, exec (.jmp (regByte ra)) s = .next t ∧
      t.pc = readReg s ra ∧
      KeepsRegs s t ∧ t.sp = s.sp ∧ t.flags = s.flags ∧ t.out = s.out ∧ KeepsMemory s t ∧ KeepsControl s t

/-- JEQ (44_control_flow.md, R92): taken at every address when E is 1, else the next instruction. -/
def Obligations.JeqJumpsExactlyWhenEqual : Prop :=
  ∀ (s : State) (ra : Reg), (s.flags.e = true ∨ s.pc.toNat ≤ 253) →
    ∃ t, exec (.jeq (regByte ra)) s = .next t ∧
      (s.flags.e = true → t.pc = readReg s ra) ∧ (s.flags.e = false → t.pc.toNat = s.pc.toNat + 2) ∧
      KeepsRegs s t ∧ t.sp = s.sp ∧ t.flags = s.flags ∧ t.out = s.out ∧ KeepsMemory s t ∧ KeepsControl s t

/-- JNE (44_control_flow.md, R93): taken at every address when E is 0, else the next instruction. -/
def Obligations.JneJumpsExactlyWhenNotEqual : Prop :=
  ∀ (s : State) (ra : Reg), (s.flags.e = false ∨ s.pc.toNat ≤ 253) →
    ∃ t, exec (.jne (regByte ra)) s = .next t ∧
      (s.flags.e = false → t.pc = readReg s ra) ∧ (s.flags.e = true → t.pc.toNat = s.pc.toNat + 2) ∧
      KeepsRegs s t ∧ t.sp = s.sp ∧ t.flags = s.flags ∧ t.out = s.out ∧ KeepsMemory s t ∧ KeepsControl s t

/-- CALL (44_control_flow.md, R94): pushes the address after its operand and goes to the register's value. -/
def Obligations.CallPushesTheReturnAddress : Prop :=
  ∀ (s : State) (ra : Reg), s.mem.wf → s.pc.toNat ≤ 253 →
    ∃ t, exec (.call (regByte ra)) s = .next t ∧
      t.pc = readReg s ra ∧ t.sp = spDown s.sp ∧ (t.mem.cell (spDown s.sp).toNat).toNat = s.pc.toNat + 2 ∧
      KeepsMemoryExcept (spDown s.sp) s t ∧
      KeepsRegs s t ∧ t.flags = s.flags ∧ t.out = s.out ∧ KeepsControl s t

/-- RET (44_control_flow.md, R95): at every address. -/
def Obligations.RetGoesToThePoppedByte : Prop :=
  ∀ s : State,
    ∃ t, exec .ret s = .next t ∧
      t.pc = s.mem.cell s.sp.toNat ∧ t.sp = spUp s.sp ∧
      KeepsRegs s t ∧ t.flags = s.flags ∧ t.out = s.out ∧ KeepsMemory s t ∧ KeepsControl s t

/-- HLT (44_control_flow.md, R96): the run state becomes Halted; PC and everything else stay. -/
def Obligations.HltHaltsAndChangesNothingElse : Prop :=
  ∀ s : State,
    ∃ t, exec .hlt s = .next t ∧ t.runState = .halted ∧ t.pc = s.pc ∧
      KeepsRegs s t ∧ t.sp = s.sp ∧ t.flags = s.flags ∧ t.out = s.out ∧ KeepsMemory s t ∧
      t.faultRecord = s.faultRecord ∧ t.config = s.config

/-! ### Faults -/

/-- R64, R98: an opcode byte that is none of the thirteen. -/
def Obligations.UnknownOpcodeFaults : Prop :=
  ∀ s : State, s.runState = .running → (∀ k, s.config.opcodes.byteOf k ≠ s.opcodeAtPc) →
    step s = .next (faultedAs s .unknownInstruction s.opcodeAtPc 0)

/-- R65: the operands a decoded opcode uses are read, operand a before operand b, and the first one whose address is above 255
raises OutOfBounds with nothing changed; operands it does not use raise nothing. -/
def Obligations.OperandFetchFollowsItsRule : Prop :=
  ∀ (s : State) (k : Opcode), s.runState = .running → s.nameAtPc = some k →
    (1 ≤ k.operandCount → s.pc.toNat + 1 > 255 →
      step s = .next (faultedAs s .outOfBounds s.opcodeAtPc (s.pc.toNat + 1))) ∧
    (2 ≤ k.operandCount → s.pc.toNat + 1 ≤ 255 → s.pc.toNat + 2 > 255 →
      step s = .next (faultedAs s .outOfBounds s.opcodeAtPc (s.pc.toNat + 2))) ∧
    (s.pc.toNat + k.operandCount ≤ 255 →
      ∃ i : Instr, i.opcode = k ∧ step s = exec i s ∧
        ∀ (j : Nat) (h : j < i.operands.length), memRead s.mem (s.pc.toNat + 1 + j) = some i.operands[j])

/-- R66: the first register operand byte above 7 raises BadRegister with that byte and nothing changed; LDI's immediate is not
checked: every byte is loaded, and only SeqNext, at 253, can fault after it. -/
def Obligations.BadRegisterOperandFaults : Prop :=
  (∀ (s : State) (i : Instr) (rest : List Byte) (b : Byte), s.runState = .running → fetchDecode s = .ok (i, rest) →
    i.registerOperands.find? (fun b => decide (7 < b.toNat)) = some b →
    step s = .next (faultedAs s .badRegister s.opcodeAtPc b.toNat)) ∧
  (∀ (s : State) (ra : Reg) (b : Byte) (rest : List Byte), s.runState = .running →
    fetchDecode s = .ok (.ldi (regByte ra) b, rest) →
    ∃ t, step s = .next t ∧ readReg t ra = b ∧ (t.runState = .running ∨ s.pc.toNat = 253))

/-- CALL at 254 or above (44_control_flow.md, R94): the return address does not fit a byte, and nothing has changed. The opcode
recorded is the instruction's own byte (log 8). -/
def Obligations.CallFaultsWhereTheReturnAddressDoesNotFit : Prop :=
  ∀ (s : State) (ra : Reg), 254 ≤ s.pc.toNat →
    exec (.call (regByte ra)) s =
      .next (faultedAs s .outOfBounds (s.config.opcodes.byteOf .call) (s.pc.toNat + 2))

/-- Sequential overflow (40_fetch_decode.md, R71): an instruction whose sequential next PC is above 255 has the effects it has
at address 0, keeps its PC, and is Faulted with OutOfBounds. The opcode recorded is the instruction's own byte (log 8). -/
def Obligations.SequentialOverflowKeepsTheEffects : Prop :=
  ∀ (i : Instr) (s t : State), i.wellFormed = true →
    (i.opcode ∈ [.ldi, .add, .mul, .cmp, .prn, .push, .pop] ∨ (i.opcode = .jeq ∧ s.flags.e = false) ∨
      (i.opcode = .jne ∧ s.flags.e = true)) →
    s.pc.toNat + i.opcode.length > 255 →
    exec i { s with pc := 0 } = .next t →
    exec i s = .next { t with
      pc          := s.pc
      runState    := .faulted
      faultRecord := some ⟨.outOfBounds, s.pc, s.config.opcodes.byteOf i.opcode, s.pc.toNat + i.opcode.length⟩ }

/-- Fault entry (60_exceptions.md, R104, R105): every step that faults keeps PC and records the address and the byte of the
failing instruction. -/
def Obligations.EveryFaultRecordsTheFailingInstruction : Prop :=
  ∀ s t : State, s.runState = .running → step s = .next t → t.runState = .faulted →
    t.pc = s.pc ∧ ∃ r, t.faultRecord = some r ∧ r.pc = s.pc ∧ r.opcode = s.opcodeAtPc

/-- Precise faults (60_exceptions.md, R104): a step that faults changes only the run state and the record, except where the
sequential next PC overflows, at 253 for a length of 3 and at 254 for a length of 2. -/
def Obligations.FaultsArePreciseExceptSequentialOverflow : Prop :=
  ∀ s t : State, s.runState = .running → step s = .next t → t.runState = .faulted →
    t = { s with runState := .faulted, faultRecord := t.faultRecord } ∨
    ∃ k, s.nameAtPc = some k ∧ s.pc.toNat + k.length = 256 ∧
      k ∈ [.ldi, .add, .mul, .cmp, .prn, .push, .pop] ∧
      t.faultRecord = some ⟨.outOfBounds, s.pc, s.opcodeAtPc, 256⟩

/-- Where OutOfBounds comes from (60_exceptions.md, R99): a used operand byte beyond memory, CALL's return address, or a
sequential next PC; never SP, and never a jump, call or return target. -/
def Obligations.OutOfBoundsComesFromThreePlaces : Prop :=
  ∀ (s t : State) (r : FaultRecord), s.runState = .running → step s = .next t → t.runState = .faulted →
    t.faultRecord = some r → r.kind = .outOfBounds →
    ∃ k, s.nameAtPc = some k ∧ r.addr = 256 ∧
      (s.pc.toNat + k.operandCount > 255 ∨
       (k = .call ∧ s.pc.toNat = 254) ∨
       (k ∈ [.ldi, .add, .mul, .cmp, .prn, .push, .pop, .jeq, .jne] ∧ s.pc.toNat + k.length = 256))

/-- The ALU raises UnsupportedOperation for the select `other`, with `addr` 0, and no instruction drives that select
(60_exceptions.md, R100). That the datapath `throughAlu` takes a select that no instruction drives is the model's reading of
log 16; that the opcode recorded is the instruction's own byte, of log 8. -/
def Obligations.UnsupportedOperationIsNeverRaisedByAnInstruction : Prop :=
  (∀ (k : Opcode) (ra rb : Reg) (s : State) (go : State → State),
    throughAlu k .other ra rb s go = faultedAs s .unsupportedOperation (s.config.opcodes.byteOf k) 0) ∧
  (∀ (s t : State) (r : FaultRecord), s.runState = .running → step s = .next t → t.runState = .faulted →
    t.faultRecord = some r → r.kind ≠ .unsupportedOperation)

/-! ### The step -/

/-- A running machine whose bytes at PC are an instruction's encoding runs that instruction (40_fetch_decode.md, R69). -/
def Obligations.StepRunsTheEncodedInstruction : Prop :=
  ∀ (s : State) (i : Instr), s.runState = .running →
    (∀ (j : Nat) (h : j < (encode s.config.opcodes i).length),
      memRead s.mem (s.pc.toNat + j) = some (encode s.config.opcodes i)[j]) →
    step s = exec i s

/-- A stopped machine never changes again (40_fetch_decode.md, R61; 60_exceptions.md, R106, R114). That a step is then answered
with the state unchanged is the model's reading (log 5). -/
def Obligations.AStoppedMachineNeverChanges : Prop :=
  ∀ (s : State) (n : Nat), s.stopped → Host.Core.run Sys2Proof.core n s = .next s

/-- Every step of every state answers a next state: no step stops with a fault or a refusal (70_reset_and_hazards.md, R128;
40_fetch_decode.md, R69).
Faults are states the machine enters and a stopped machine stays as it is: the model's reading (logs 5 and 6). -/
def Obligations.EveryStepAnswersANextState : Prop :=
  ∀ s : State, ∃ t, Sys2Proof.core.step s = .next t

/-- The machine halts exactly on HLT (10_state.md, R23; 44_control_flow.md, R96). -/
def Obligations.OnlyHltHalts : Prop :=
  ∀ s t : State, s.runState = .running → step s = .next t →
    (t.runState = .halted ↔ s.nameAtPc = some .hlt)

/-- Only CMP writes the flags (10_state.md, R22). -/
def Obligations.OnlyCmpWritesTheFlags : Prop :=
  ∀ s t : State, step s = .next t → s.nameAtPc ≠ some .cmp → t.flags = s.flags

/-- No instruction reads G or L: machines that differ only there step alike (10_state.md, R22). -/
def Obligations.GreaterAndLessAreNeverRead : Prop :=
  ∀ (s t : State) (g l : Bool), step s = .next t →
    ∃ t', step (setFlags s ⟨s.flags.e, g, l⟩) = .next t' ∧ setFlags t' t.flags = t ∧ t'.flags.e = t.flags.e

/-- Only PUSH, POP, CALL and RET write SP, and only PUSH and CALL write memory (10_state.md, R21; 20_memory.md, R32). -/
def Obligations.OnlyStackInstructionsTouchTheStack : Prop :=
  ∀ s t : State, step s = .next t →
    (s.nameAtPc ∉ [some .push, some .pop, some .call, some .ret] → t.sp = s.sp) ∧
    (s.nameAtPc ∉ [some .push, some .call] → KeepsMemory s t)

/-- Only LDI, ADD, MUL and POP write a general register, and each writes one (10_state.md, R15). -/
def Obligations.OnlyFourInstructionsWriteRegisters : Prop :=
  ∀ s t : State, step s = .next t →
    (s.nameAtPc ∉ [some .ldi, some .add, some .mul, some .pop] → KeepsRegs s t) ∧
    ∃ d, KeepsRegsExcept d s t

/-- The output trace only grows, by one byte at a time, and only by PRN (10_state.md, R25). -/
def Obligations.OnlyPrnExtendsTheOutput : Prop :=
  ∀ s t : State, step s = .next t →
    (s.nameAtPc ≠ some .prn → t.out = s.out) ∧ (t.out = s.out ∨ ∃ v, t.out = s.out ++ [v])

/-- The invariant holds after construction, whatever the configuration. -/
def Obligations.InvariantHoldsAfterReset : Prop :=
  ∀ c : Config, (State.construct c).Inv

/-- Every step keeps the invariant and the configuration: canonical memory, at most one flag, and a fault record that is empty
except in Faulted, where it describes the failing instruction (10_state.md, R22, R24; 60_exceptions.md, R98 to R104). The
canonical form of memory is the model's (log 15). -/
def Obligations.EveryStepKeepsTheInvariant : Prop :=
  ∀ s t : State, s.Inv → step s = .next t → t.Inv ∧ t.config = s.config

/-- Fetching depends on no byte but the instruction's own (20_memory.md, R36). -/
def Obligations.FetchReadsOnlyTheBytesOfTheInstruction : Prop :=
  ∀ (s : State) (mem : Memory) (k : Opcode), s.nameAtPc = some k →
    (∀ j, j ≤ k.operandCount → mem.cell (s.pc.toNat + j) = s.mem.cell (s.pc.toNat + j)) →
    fetchDecode { s with mem := mem } = fetchDecode s

/-- A byte that PUSH or CALL stores is what the very next step fetches, whatever the byte and wherever that step's instruction
uses its cell (20_memory.md, R46; 70_reset_and_hazards.md, R130): as the opcode, faulting or executed, or as an operand. -/
def Obligations.APushedByteIsFetchedByTheNextStep : Prop :=
  ∀ (s : State) (ra : Reg), s.mem.wf → s.runState = .running → s.pc.toNat ≤ 253 →
    (∃ t, exec (.push (regByte ra)) s = .next t ∧ t.runState = .running ∧ t.pc.toNat = s.pc.toNat + 2 ∧
      NextStepUses t (spDown s.sp).toNat (readReg s ra)) ∧
    (∃ t, exec (.call (regByte ra)) s = .next t ∧ t.runState = .running ∧ t.pc = readReg s ra ∧
      NextStepUses t (spDown s.sp).toNat (s.pc + 2))

/-! ### Stack laws -/

/-- The address rule of a push (R37), and that PUSH and CALL use it. -/
def Obligations.PushMovesTheStackPointerDownFirst : Prop :=
  ∀ (s : State) (v : Byte), s.mem.wf →
    (pushByte s v).sp.toNat = (s.sp.toNat + 255) % 256 ∧
    (pushByte s v).mem.cell ((s.sp.toNat + 255) % 256) = v ∧
    (∀ addr, addr ≠ (s.sp.toNat + 255) % 256 → (pushByte s v).mem.cell addr = s.mem.cell addr) ∧
    (s.sp = 0 → (pushByte s v).sp = 255 ∧ (pushByte s v).mem.cell 255 = v) ∧
    (∀ ra, s.pc.toNat ≤ 253 → ∃ t, exec (.push (regByte ra)) s = .next t ∧
      t.sp = (pushByte s (readReg s ra)).sp ∧ t.mem = (pushByte s (readReg s ra)).mem) ∧
    (∀ ra, s.pc.toNat ≤ 253 → ∃ t, exec (.call (regByte ra)) s = .next t ∧
      t.sp = (pushByte s (s.pc + 2)).sp ∧ t.mem = (pushByte s (s.pc + 2)).mem)

/-- The address rule of a pop (R38), and that POP and RET use it. -/
def Obligations.PopReadsBeforeTheStackPointerMovesUp : Prop :=
  ∀ s : State,
    poppedByte s = s.mem.cell s.sp.toNat ∧
    (popSp s).sp.toNat = (s.sp.toNat + 1) % 256 ∧
    (s.sp = 255 → poppedByte s = s.mem.cell 255 ∧ (popSp s).sp = 0) ∧
    (∀ ra, s.pc.toNat ≤ 253 → ∃ t, exec (.pop (regByte ra)) s = .next t ∧
      readReg t ra = poppedByte s ∧ t.sp = (popSp s).sp ∧ t.mem = s.mem) ∧
    (∃ t, exec .ret s = .next t ∧ t.pc = poppedByte s ∧ t.sp = (popSp s).sp ∧ t.mem = s.mem)

/-- The source's round-trip law (95_test_vectors.md, S3): PUSH then POP of one register restores every register and SP. -/
def Obligations.PushThenPopRestores : Prop :=
  ∀ (s : State) (ra : Reg), s.mem.wf → s.pc.toNat ≤ 251 →
    ∃ t u, exec (.push (regByte ra)) s = .next t ∧ exec (.pop (regByte ra)) t = .next u ∧
      KeepsRegs s u ∧ u.sp = s.sp ∧ u.flags = s.flags ∧ u.pc.toNat = s.pc.toNat + 4

/-- CALL then RET (95_test_vectors.md, S6): control returns to the byte after the CALL, with SP restored. -/
def Obligations.CallThenRetReturns : Prop :=
  ∀ (s : State) (ra : Reg), s.mem.wf → s.pc.toNat ≤ 253 →
    ∃ t u, exec (.call (regByte ra)) s = .next t ∧ exec .ret t = .next u ∧
      u.pc.toNat = s.pc.toNat + 2 ∧ u.sp = s.sp ∧ KeepsRegs s u

/-! ### The ALU -/

/-- R74, R75: ADD and MUL are the low 8 bits of the true sum and product; the answer is a result byte and no flags. -/
def Obligations.AluAddsAndMultipliesModulo256 : Prop :=
  ∀ x y : Byte,
    (∃ r, alu .add x y = .result r ∧ r.toNat = (x.toNat + y.toNat) % 256) ∧
    (∃ r, alu .mul x y = .result r ∧ r.toNat = (x.toNat * y.toNat) % 256)

/-- R76: CMP answers flags and no result byte, unsigned, exactly one of the three set. -/
def Obligations.AluComparesUnsigned : Prop :=
  ∀ x y : Byte, ∃ f, alu .cmp x y = .flags f ∧
    (f.e = true ↔ x.toNat = y.toNat) ∧ (f.g = true ↔ x.toNat > y.toNat) ∧ (f.l = true ↔ x.toNat < y.toNat) ∧
    bit f.e + bit f.g + bit f.l = 1

/-- R77, R78, R79: AND, OR and XOR bit by bit; the answer is a result byte and no flags. -/
def Obligations.AluLogicIsBitByBit : Prop :=
  ∀ x y : Byte, ∃ a o e, alu .and x y = .result a ∧ alu .or x y = .result o ∧ alu .xor x y = .result e ∧
    ∀ i : Nat, i < 8 →
      (a.getLsbD i = true ↔ (x.getLsbD i = true ∧ y.getLsbD i = true)) ∧
      (o.getLsbD i = true ↔ (x.getLsbD i = true ∨ y.getLsbD i = true)) ∧
      (e.getLsbD i = true ↔ x.getLsbD i ≠ y.getLsbD i)

/-- R80, R81: NOT is 255 - y, the complement of y, whatever x is; NOP is 0. The answers are result bytes and no flags. -/
def Obligations.AluNotIsTheComplementAndNopIsZero : Prop :=
  ∀ x y : Byte,
    (∃ r, alu .not x y = .result r ∧ r.toNat = 255 - y.toNat ∧ ∀ i : Nat, i < 8 → r.getLsbD i = !y.getLsbD i) ∧
    alu .nop x y = .result 0

/-! ### Encoding -/

/-- Decoding an encoded instruction gives it back, every operand byte at every value, under every legal opcode map
(30_encoding.md). -/
def Obligations.DecodeOfEncodeIsTheInstruction : Prop :=
  ∀ (m : OpcodeMap) (i : Instr) (more : List Byte), m.legal → decodeBytes m (encode m i ++ more) = some (i, more)

/-- Bytes that decode are the encoding of what they decode to, then the bytes left over (30_encoding.md). -/
def Obligations.DecodedBytesAreTheEncoding : Prop :=
  ∀ (m : OpcodeMap) (bs more : List Byte) (i : Instr),
    decodeBytes m bs = some (i, more) → bs = encode m i ++ more

/-- R55: the whole opcode byte is matched with the thirteen values; no other byte decodes; operand bytes do not choose. -/
def Obligations.DecoderMatchesTheWholeByte : Prop :=
  ∀ (m : OpcodeMap) (op : Byte), m.legal →
    (∀ k, m.byteOf k = op → ∀ rest, k.operandCount ≤ rest.length →
      ∃ i more, decode m op rest = .ok (i, more) ∧ i.opcode = k) ∧
    ((∀ k, m.byteOf k ≠ op) → ∀ rest, decode m op rest = .error .unknownInstruction)

/-- Under every legal opcode map exactly 243 of the 256 byte values are no instruction (30_encoding.md, R56). -/
def Obligations.ExactlyTwoHundredFortyThreeBytesAreIllegal : Prop :=
  ∀ m : OpcodeMap, m.legal →
    (List.range 256).countP (fun n => (opcodeOf m (BitVec.ofNat 8 n)).isNone) = 243

/-- R54: the three bytes the source gives and its unassigned byte, under every legal opcode map (a machine has no other). -/
def Obligations.TheSourcesOwnBytesDecode : Prop :=
  (∀ m : OpcodeMap, m.legal →
    decodeBytes m [0b10000010, 0, 8, 0b01000111, 0, 0b00000001] = some (.ldi 0 8, [0b01000111, 0, 0b00000001]) ∧
    decodeBytes m [0b01000111, 0, 0b00000001] = some (.prn 0, [0b00000001]) ∧
    decodeBytes m [0b00000001] = some (.hlt, [])) ∧
  (∀ s : State, s.runState = .running → s.opcodeAtPc = 0b11111111 →
    step s = .next (faultedAs s .unknownInstruction 0b11111111 0))

/-- Words written out from the encodings decode to their instructions. The ten bytes other than 0x82, 0x47 and 0x01 are the
default of `OPCODE_MAP`, PRESUMED (log 2). -/
def Obligations.WrittenWordsDecode : Prop :=
  decodeTableWord 24 0x080082 = some (.ldi 0 8) ∧
  decodeTableWord 24 0x0201A0 = some (.add 1 2) ∧
  decodeTableWord 24 0x0301A7 = some (.cmp 1 3) ∧
  decodeTableWord 16 0x0647 = some (.prn 6) ∧
  decodeTableWord 16 0x0045 = some (.push 0) ∧
  decodeTableWord 16 0x0250 = some (.call 2) ∧
  decodeTableWord 8 0x11 = some .ret ∧
  decodeTableWord 8 0xFF = none

/-! ### Memory -/

/-- R33: MemRead answers the cell's byte inside memory and nothing outside. -/
def Obligations.MemReadStaysInsideMemory : Prop :=
  ∀ (m : Memory) (addr : Nat),
    (addr ≤ 255 → memRead m addr = some (m.cell addr)) ∧ (addr > 255 → memRead m addr = none)

/-- R34: MemWrite sets one cell and no other, answers nothing outside memory, and never fails at an SP value. It also keeps the
model's canonical form (log 15). -/
def Obligations.MemWriteSetsOneCell : Prop :=
  ∀ (m : Memory) (addr : Nat) (v : Byte), m.wf →
    (addr ≤ 255 → ∃ m', memWrite m addr v = some m' ∧ m'.wf ∧ m'.cell addr = v ∧
      ∀ other, other ≠ addr → m'.cell other = m.cell other) ∧
    (addr > 255 → memWrite m addr v = none) ∧
    ∀ sp : Byte, memWrite m sp.toNat v ≠ none

/-- Canonical memories that read alike at every address are equal: the model's canonical form loses nothing and adds nothing
(log 15). -/
def Obligations.CanonicalMemoriesThatReadAlikeAreEqual : Prop :=
  ∀ m m' : Memory, m.wf → m'.wf → (∀ addr, m.cell addr = m'.cell addr) → m = m'

/-! ### Reset and the host's side -/

/-- R116: every piece of state after reset, at each value of `SP_INIT`; State.reset takes the default 244 (log 3). -/
def Obligations.ResetStateIsAsStated : Prop :=
  (∀ c : Config, (∀ r, readReg (State.construct c) r = 0) ∧ (∀ addr, (State.construct c).mem.cell addr = 0) ∧
    (State.construct c).pc = 0 ∧ (State.construct c).sp = c.spInit.value ∧
    (State.construct c).flags = ⟨false, false, false⟩ ∧ (State.construct c).runState = .running ∧
    (State.construct c).faultRecord = none ∧ (State.construct c).out = []) ∧
  (∀ c : Config, (State.construct c).sp = 244 ∨ (State.construct c).sp = 255) ∧
  (∃ c : Config, State.reset = State.construct c) ∧ State.reset.sp = 244

/-- R119: an image that fits goes to the cells from 0 on, over whatever they held, and nothing else changes; after
construction the cells past its end are 0. -/
def Obligations.LoadWritesTheImageFromZero : Prop :=
  ∀ (image : List Byte) (s : State), s.mem.wf → image.length ≤ 256 →
    ∃ t, loadImage image s = .ready t ∧
      (∀ (k : Nat) (h : k < image.length), t.mem.cell k = image[k]) ∧
      (∀ k, image.length ≤ k → t.mem.cell k = s.mem.cell k) ∧
      ((∃ c, s = State.construct c) → ∀ k, image.length ≤ k → t.mem.cell k = 0) ∧
      { t with mem := s.mem } = s ∧ t.mem.wf

/-- R121: an image longer than 256 bytes fails to load, with OutOfBounds at 256, and there is no state to step (that a failed
load answers no state is the model's way to say so, log 13). -/
def Obligations.ALongImageFailsToLoad : Prop :=
  ∀ (image : List Byte) (s : State), 256 < image.length → loadImage image s = .failed .outOfBounds 256

/-- The program text, a line at a time (70_reset_and_hazards.md, R120): comments are dropped, whitespace at both ends changes
nothing, 1 to 8 binary digits are a byte with the most significant first, more are a LoadError, and an empty line or one with
another character is skipped. What counts as whitespace is PRESUMED (log 12); a space does. -/
def Obligations.ProgramLinesAreReadAsBytes : Prop :=
  (∀ a c : List Char, '#' ∉ a → parseLine (a ++ '#' :: c) = parseLine a) ∧
  (∀ a l b : List Char, (∀ d ∈ a ++ b, isSpace d = true) → parseLine (a ++ l ++ b) = parseLine l) ∧
  isSpace ' ' = true ∧
  (∀ ds : List Char, ds ≠ [] → (∀ d ∈ ds, d = '0' ∨ d = '1') → ds.length ≤ 8 →
    ∃ b, parseLine ds = .byte b ∧
      b.toNat = Nat.ofDigits 2 (ds.reverse.map (fun d => if d = '1' then 1 else 0))) ∧
  (∀ ds : List Char, (∀ d ∈ ds, d = '0' ∨ d = '1') → 8 < ds.length → parseLine ds = .badLiteral) ∧
  (∀ l : List Char, (∀ d ∈ l, isSpace d = true) → parseLine l = .skip) ∧
  (∀ (l : List Char) (d : Char), '#' ∉ l → (∀ c ∈ l.head?, isSpace c = false) → (∀ c ∈ l.getLast?, isSpace c = false) →
    d ∈ l → d ≠ '0' → d ≠ '1' → parseLine l = .skip)

/-- R125 (which non-zero value is open, log 14): the exit status is 0 for a run that ends Halted, and not 0 for one that ends Faulted or a load that fails. -/
def Obligations.ExitStatusTellsSuccessFromFailure : Prop :=
  (∀ s : State, s.cleanEnd → exitStatus s = some 0) ∧
  (∀ s : State, s.failedEnd → ∃ n, exitStatus s = some n ∧ n ≠ 0) ∧
  (∀ (kind : FaultKind) (addr : Nat), ∃ n, loadExitStatus (.failed kind addr) = some n ∧ n ≠ 0)

/-- The status port's flag byte `0b00000LGE` and its fault codes (10_state.md, R27; 60_exceptions.md, R97): the layout and the
numbers are the spec's own choices. -/
def Obligations.StatusPortLayout : Prop :=
  ∀ s : State,
    (statusPort s).flags.getLsbD 0 = s.flags.e ∧ (statusPort s).flags.getLsbD 1 = s.flags.g ∧
    (statusPort s).flags.getLsbD 2 = s.flags.l ∧ (∀ i : Nat, 3 ≤ i → (statusPort s).flags.getLsbD i = false) ∧
    ((statusPort s).code = 0 ↔ s.faultRecord = none) ∧
    (∀ r, s.faultRecord = some r →
      (statusPort s).code =
        match r.kind with
        | .unknownInstruction   => 1
        | .outOfBounds          => 2
        | .unsupportedOperation => 3
        | .badRegister          => 4
        | .loadError            => 5)
end

