-- ==== Sys2Proof/Laws/Decode.lean ====
section
/-! SUPPORT. What the decoder's parts do. -/

namespace Sys2Proof

theorem Opcode.mem_all (k : Opcode) : k ∈ Opcode.all := by cases k <;> decide

/-- A decoded opcode has the byte that was decoded. -/
theorem opcodeOf_some {m : OpcodeMap} {op : Byte} {k : Opcode} (h : opcodeOf m op = some k) : m.byteOf k = op := by
  simpa using List.find?_some h

/-- A byte that is no opcode's byte decodes to none. -/
theorem opcodeOf_none {m : OpcodeMap} {op : Byte} : opcodeOf m op = none ↔ ∀ k, m.byteOf k ≠ op := by
  simp [opcodeOf, List.find?_eq_none, Opcode.mem_all]

/-- Under a legal map each instruction's byte decodes to its name. -/
theorem opcodeOf_byteOf {m : OpcodeMap} (h : m.legal) (k : Opcode) : opcodeOf m (m.byteOf k) = some k := by
  cases ho : opcodeOf m (m.byteOf k) with
  | none => exact absurd rfl (opcodeOf_none.1 ho k)
  | some k' =>
    rw [List.inj_on_of_nodup_map (List.nodup_cons.1 h).2 (Opcode.mem_all k') (Opcode.mem_all k) (opcodeOf_some ho)]

/-- A machine's opcode map is legal, so each instruction's byte decodes to its name. -/
@[simp] theorem opcodeOf_byteOf_config (c : Config) (k : Opcode) : opcodeOf c.opcodes (c.opcodes.byteOf k) = some k :=
  opcodeOf_byteOf c.legal k

/-- The instruction has as many operand bytes as its opcode says. -/
theorem operands_length (i : Instr) : i.operands.length = i.opcode.operandCount := by cases i <;> rfl

/-- Decoding a known opcode byte decodes the operands. -/
theorem decode_of_opcode {m : OpcodeMap} {op : Byte} {k : Opcode} (h : opcodeOf m op = some k) (rest : List Byte) :
    decode m op rest = decodeOperands k rest := by simp [decode, h]

/-- The operands of an instruction decode to it. -/
theorem decodeOperands_operands (i : Instr) (rest : List Byte) :
    decodeOperands i.opcode (i.operands ++ rest) = .ok (i, rest) := by cases i <;> rfl

/-- What the decoder answers for a known opcode: an instruction of that name whose operands are the bytes, or a missing
operand. -/
theorem decodeOperands_ok {k : Opcode} {bs rest : List Byte} {i : Instr} (h : decodeOperands k bs = .ok (i, rest)) :
    i.opcode = k ∧ bs = i.operands ++ rest := by
  cases k <;> rcases bs with _ | ⟨a, _ | ⟨b, bs⟩⟩ <;>
    simp_all [decodeOperands, oneOperand, twoOperands] <;>
    (try obtain ⟨rfl, rfl⟩ := h) <;> simp_all [Instr.opcode, Instr.operands]

end Sys2Proof
end

