-- ==== Sys2Proof/Laws/Memory.lean ====
section
/-! SUPPORT. The memory laws: a read after a write, and the canonical form, which every memory operation keeps. -/

namespace Sys2Proof.Machine

@[simp] theorem Memory.cell_nil (addr : Nat) : Memory.cell [] addr = unlistedByte := rfl

/-- An address that is not listed reads as an unlisted one. -/
theorem Memory.cell_unlisted {m : Memory} {addr : Nat} (h : ∀ c ∈ m, c.1 ≠ addr) :
    m.cell addr = unlistedByte := by
  induction m with
  | nil => rfl
  | cons c rest ih =>
    have hc := h c (by simp)
    rw [Memory.cell, if_neg hc]
    exact ih fun d hd => h d (by simp [hd])

theorem Memory.wf_tail {c : Host.Cell} {m : Memory} (h : Memory.wf (c :: m)) : Memory.wf m :=
  ⟨(List.pairwise_cons.mp h.1).2, fun d hd => h.2 d (by simp [hd])⟩

/-- Below a canonical list's first address nothing is listed. -/
theorem Memory.below_head {c : Host.Cell} {m : Memory} (h : Memory.wf (c :: m)) :
    ∀ d ∈ m, c.1 < d.1 := (List.pairwise_cons.mp h.1).1

/-- A write leaves every other cell alone. -/
theorem Memory.cell_set_ne (m : Memory) {addr other : Nat} (v : Byte) (h : other ≠ addr) :
    (m.set addr v).cell other = m.cell other := by
  have h' : ¬ addr = other := fun e => h e.symm
  induction m with
  | nil => by_cases hv : v = unlistedByte <;> simp [Memory.set, Memory.cell, hv, h']
  | cons c rest ih =>
    obtain ⟨a, w⟩ := c
    rw [Memory.set]
    split_ifs with h1 hv h2 hv <;> simp_all [Memory.cell]

/-- A read after a write to the same cell gives the byte written. -/
theorem Memory.cell_set_self {m : Memory} (hm : m.wf) (addr : Nat) (v : Byte) :
    (m.set addr v).cell addr = v := by
  induction m with
  | nil => by_cases hv : v = unlistedByte <;> simp [Memory.set, Memory.cell, hv]
  | cons c rest ih =>
    obtain ⟨a, w⟩ := c
    have hlt := Memory.below_head hm
    have hrest := ih (Memory.wf_tail hm)
    by_cases h1 : addr < a
    · by_cases hv : v = unlistedByte
      · have hne : ¬ a = addr := by omega
        have : Memory.cell rest addr = unlistedByte :=
          Memory.cell_unlisted fun d hd => by have := hlt d hd; simp at this; omega
        simp [Memory.set, Memory.cell, h1, hv, hne, this]
      · simp [Memory.set, Memory.cell, h1, hv]
    · by_cases h2 : addr = a
      · subst h2
        by_cases hv : v = unlistedByte
        · have : Memory.cell rest addr = unlistedByte :=
            Memory.cell_unlisted fun d hd => by have := hlt d hd; simp at this; omega
          simp [Memory.set, hv, this]
        · simp [Memory.set, Memory.cell, hv]
      · have hne : ¬ a = addr := fun e => h2 e.symm
        simp [Memory.set, Memory.cell, h1, h2, hne, hrest]

/-- A listed cell of the memory after a write is the one written or an old one. -/
theorem Memory.mem_set {m : Memory} {addr : Nat} {v : Byte} {c : Host.Cell} (h : c ∈ m.set addr v) :
    (c = (addr, v) ∧ v ≠ unlistedByte) ∨ c ∈ m := by
  induction m with
  | nil => by_cases hv : v = unlistedByte <;> simp_all [Memory.set]
  | cons d rest ih =>
    obtain ⟨a, w⟩ := d
    by_cases h1 : addr < a <;> by_cases h2 : addr = a <;> by_cases hv : v = unlistedByte <;>
      simp_all [Memory.set] <;> tauto

/-- A write inside memory keeps the canonical form. -/
theorem Memory.set_wf {m : Memory} (hm : m.wf) {addr : Nat} (ha : addr < memSize) (v : Byte) :
    (m.set addr v).wf := by
  refine ⟨?_, fun c hc => ?_⟩
  · induction m with
    | nil => by_cases hv : v = unlistedByte <;> simp [Memory.set, hv]
    | cons c rest ih =>
      obtain ⟨a, w⟩ := c
      have hlt := Memory.below_head hm
      have hp := (Memory.wf_tail hm).1
      have hrest := ih (Memory.wf_tail hm)
      by_cases h1 : addr < a
      · by_cases hv : v = unlistedByte
        · simpa [Memory.set, h1, hv] using hm.1
        · simp only [Memory.set, h1, hv, if_true, if_false, List.pairwise_cons]
          refine ⟨fun d hd => ?_, hlt, hp⟩
          rcases List.mem_cons.mp hd with rfl | hd
          · exact h1
          · exact Nat.lt_trans h1 (hlt d hd)
      · by_cases h2 : addr = a
        · subst h2
          by_cases hv : v = unlistedByte
          · simpa [Memory.set, hv] using hp
          · simpa [Memory.set, hv] using And.intro hlt hp
        · simp only [Memory.set, h1, h2, if_false, List.pairwise_cons]
          refine ⟨fun d hd => ?_, hrest⟩
          rcases Memory.mem_set hd with ⟨rfl, -⟩ | hd
          · exact Nat.lt_of_le_of_ne (Nat.le_of_not_lt h1) (Ne.symm h2)
          · exact hlt d hd
  · rcases Memory.mem_set hc with ⟨rfl, hv⟩ | hc
    · exact ⟨ha, hv⟩
    · exact hm.2 c hc

theorem memRead_of_le {addr : Nat} (m : Memory) (h : addr ≤ 255) : memRead m addr = some (m.cell addr) := by
  simp [memRead, Nat.not_lt.mpr h]

theorem memWrite_of_le {addr : Nat} (m : Memory) (v : Byte) (h : addr ≤ 255) :
    memWrite m addr v = some (m.set addr v) := by
  simp [memWrite, Nat.not_lt.mpr h]

/-- MemWrite keeps the canonical form. -/
theorem memWrite_wf {m m' : Memory} {addr : Nat} {v : Byte} (hm : m.wf) (h : memWrite m addr v = some m') :
    m'.wf := by
  by_cases ha : addr > 255
  · simp [memWrite, ha] at h
  · simp only [memWrite, ha, if_false, Option.some.injEq] at h
    exact h ▸ Memory.set_wf hm (by simp [memSize]; omega) v

/-- A store at a byte address keeps the canonical form. -/
theorem storeByte_wf {s : State} (hm : s.mem.wf) (a v : Byte) : (storeByte s a v).mem.wf :=
  Memory.set_wf hm (by have := a.isLt; simpa [memSize] using this) v

/-- A push keeps the canonical form. -/
theorem pushByte_wf {s : State} (hm : s.mem.wf) (v : Byte) : (pushByte s v).mem.wf :=
  storeByte_wf (s := setSp s (spDown s.sp)) hm _ v

/-- Bytes stored in a row keep the canonical form. -/
theorem storeFrom_wf {m : Memory} (hm : m.wf) (addr : Nat) (bs : List Byte) : (storeFrom m addr bs).wf := by
  induction bs generalizing m addr with
  | nil => exact hm
  | cons b rest ih =>
    rw [storeFrom]
    split
    · exact hm
    · next m' h => exact ih (memWrite_wf hm h) _

/-- Memory after reset is canonical, at every configuration. -/
theorem construct_mem_wf (c : Config) : (State.construct c).mem.wf := by
  exact ⟨List.Pairwise.nil, fun c hc => absurd hc (List.not_mem_nil (a := c))⟩

end Sys2Proof.Machine
end

