-- ==== Sys2Proof/Laws/State.lean ====
section
/-! SUPPORT. One lemma per field per update of State, so that no proof unfolds a record update. -/

namespace Sys2Proof.Machine

/-! ### `writeReg` writes the register file -/

@[simp] theorem writeReg_regs (s : State) (r : Reg) (v : Byte) : (writeReg s r v).regs = s.regs.set r.val v r.isLt := rfl
@[simp] theorem writeReg_pc (s : State) (r : Reg) (v : Byte) : (writeReg s r v).pc = s.pc := rfl
@[simp] theorem writeReg_sp (s : State) (r : Reg) (v : Byte) : (writeReg s r v).sp = s.sp := rfl
@[simp] theorem writeReg_flags (s : State) (r : Reg) (v : Byte) : (writeReg s r v).flags = s.flags := rfl
@[simp] theorem writeReg_runState (s : State) (r : Reg) (v : Byte) : (writeReg s r v).runState = s.runState := rfl
@[simp] theorem writeReg_faultRecord (s : State) (r : Reg) (v : Byte) : (writeReg s r v).faultRecord = s.faultRecord := rfl
@[simp] theorem writeReg_out (s : State) (r : Reg) (v : Byte) : (writeReg s r v).out = s.out := rfl
@[simp] theorem writeReg_mem (s : State) (r : Reg) (v : Byte) : (writeReg s r v).mem = s.mem := rfl
@[simp] theorem writeReg_config (s : State) (r : Reg) (v : Byte) : (writeReg s r v).config = s.config := rfl

/-! ### `setPc` writes PC -/

@[simp] theorem setPc_regs (s : State) (v : Byte) : (setPc s v).regs = s.regs := rfl
@[simp] theorem setPc_pc (s : State) (v : Byte) : (setPc s v).pc = v := rfl
@[simp] theorem setPc_sp (s : State) (v : Byte) : (setPc s v).sp = s.sp := rfl
@[simp] theorem setPc_flags (s : State) (v : Byte) : (setPc s v).flags = s.flags := rfl
@[simp] theorem setPc_runState (s : State) (v : Byte) : (setPc s v).runState = s.runState := rfl
@[simp] theorem setPc_faultRecord (s : State) (v : Byte) : (setPc s v).faultRecord = s.faultRecord := rfl
@[simp] theorem setPc_out (s : State) (v : Byte) : (setPc s v).out = s.out := rfl
@[simp] theorem setPc_mem (s : State) (v : Byte) : (setPc s v).mem = s.mem := rfl
@[simp] theorem setPc_config (s : State) (v : Byte) : (setPc s v).config = s.config := rfl

/-! ### `setSp` writes SP -/

@[simp] theorem setSp_regs (s : State) (v : Byte) : (setSp s v).regs = s.regs := rfl
@[simp] theorem setSp_pc (s : State) (v : Byte) : (setSp s v).pc = s.pc := rfl
@[simp] theorem setSp_sp (s : State) (v : Byte) : (setSp s v).sp = v := rfl
@[simp] theorem setSp_flags (s : State) (v : Byte) : (setSp s v).flags = s.flags := rfl
@[simp] theorem setSp_runState (s : State) (v : Byte) : (setSp s v).runState = s.runState := rfl
@[simp] theorem setSp_faultRecord (s : State) (v : Byte) : (setSp s v).faultRecord = s.faultRecord := rfl
@[simp] theorem setSp_out (s : State) (v : Byte) : (setSp s v).out = s.out := rfl
@[simp] theorem setSp_mem (s : State) (v : Byte) : (setSp s v).mem = s.mem := rfl
@[simp] theorem setSp_config (s : State) (v : Byte) : (setSp s v).config = s.config := rfl

/-! ### `setFlags` writes the flags -/

@[simp] theorem setFlags_regs (s : State) (f : Flags) : (setFlags s f).regs = s.regs := rfl
@[simp] theorem setFlags_pc (s : State) (f : Flags) : (setFlags s f).pc = s.pc := rfl
@[simp] theorem setFlags_sp (s : State) (f : Flags) : (setFlags s f).sp = s.sp := rfl
@[simp] theorem setFlags_flags (s : State) (f : Flags) : (setFlags s f).flags = f := rfl
@[simp] theorem setFlags_runState (s : State) (f : Flags) : (setFlags s f).runState = s.runState := rfl
@[simp] theorem setFlags_faultRecord (s : State) (f : Flags) : (setFlags s f).faultRecord = s.faultRecord := rfl
@[simp] theorem setFlags_out (s : State) (f : Flags) : (setFlags s f).out = s.out := rfl
@[simp] theorem setFlags_mem (s : State) (f : Flags) : (setFlags s f).mem = s.mem := rfl
@[simp] theorem setFlags_config (s : State) (f : Flags) : (setFlags s f).config = s.config := rfl

/-! ### `storeByte` writes memory -/

@[simp] theorem storeByte_regs (s : State) (a v : Byte) : (storeByte s a v).regs = s.regs := rfl
@[simp] theorem storeByte_pc (s : State) (a v : Byte) : (storeByte s a v).pc = s.pc := rfl
@[simp] theorem storeByte_sp (s : State) (a v : Byte) : (storeByte s a v).sp = s.sp := rfl
@[simp] theorem storeByte_flags (s : State) (a v : Byte) : (storeByte s a v).flags = s.flags := rfl
@[simp] theorem storeByte_runState (s : State) (a v : Byte) : (storeByte s a v).runState = s.runState := rfl
@[simp] theorem storeByte_faultRecord (s : State) (a v : Byte) : (storeByte s a v).faultRecord = s.faultRecord := rfl
@[simp] theorem storeByte_out (s : State) (a v : Byte) : (storeByte s a v).out = s.out := rfl
@[simp] theorem storeByte_mem (s : State) (a v : Byte) : (storeByte s a v).mem = s.mem.set a.toNat v := rfl
@[simp] theorem storeByte_config (s : State) (a v : Byte) : (storeByte s a v).config = s.config := rfl

/-! ### `emit` writes the output trace -/

@[simp] theorem emit_regs (s : State) (v : Byte) : (emit s v).regs = s.regs := rfl
@[simp] theorem emit_pc (s : State) (v : Byte) : (emit s v).pc = s.pc := rfl
@[simp] theorem emit_sp (s : State) (v : Byte) : (emit s v).sp = s.sp := rfl
@[simp] theorem emit_flags (s : State) (v : Byte) : (emit s v).flags = s.flags := rfl
@[simp] theorem emit_runState (s : State) (v : Byte) : (emit s v).runState = s.runState := rfl
@[simp] theorem emit_faultRecord (s : State) (v : Byte) : (emit s v).faultRecord = s.faultRecord := rfl
@[simp] theorem emit_out (s : State) (v : Byte) : (emit s v).out = s.out ++ [v] := rfl
@[simp] theorem emit_mem (s : State) (v : Byte) : (emit s v).mem = s.mem := rfl
@[simp] theorem emit_config (s : State) (v : Byte) : (emit s v).config = s.config := rfl

/-! ### `haltRun` writes the run state -/

@[simp] theorem haltRun_regs (s : State) : (haltRun s).regs = s.regs := rfl
@[simp] theorem haltRun_pc (s : State) : (haltRun s).pc = s.pc := rfl
@[simp] theorem haltRun_sp (s : State) : (haltRun s).sp = s.sp := rfl
@[simp] theorem haltRun_flags (s : State) : (haltRun s).flags = s.flags := rfl
@[simp] theorem haltRun_runState (s : State) : (haltRun s).runState = .halted := rfl
@[simp] theorem haltRun_faultRecord (s : State) : (haltRun s).faultRecord = s.faultRecord := rfl
@[simp] theorem haltRun_out (s : State) : (haltRun s).out = s.out := rfl
@[simp] theorem haltRun_mem (s : State) : (haltRun s).mem = s.mem := rfl
@[simp] theorem haltRun_config (s : State) : (haltRun s).config = s.config := rfl

/-! ### `raise` writes the run state and the fault record -/

@[simp] theorem raise_regs (k : FaultKind) (op : Byte) (n : Nat) (s : State) : (raise k op n s).regs = s.regs := rfl
@[simp] theorem raise_pc (k : FaultKind) (op : Byte) (n : Nat) (s : State) : (raise k op n s).pc = s.pc := rfl
@[simp] theorem raise_sp (k : FaultKind) (op : Byte) (n : Nat) (s : State) : (raise k op n s).sp = s.sp := rfl
@[simp] theorem raise_flags (k : FaultKind) (op : Byte) (n : Nat) (s : State) : (raise k op n s).flags = s.flags := rfl
@[simp] theorem raise_runState (k : FaultKind) (op : Byte) (n : Nat) (s : State) : (raise k op n s).runState = .faulted := rfl
@[simp] theorem raise_faultRecord (k : FaultKind) (op : Byte) (n : Nat) (s : State) : (raise k op n s).faultRecord = some ⟨k, s.pc, op, n⟩ := rfl
@[simp] theorem raise_out (k : FaultKind) (op : Byte) (n : Nat) (s : State) : (raise k op n s).out = s.out := rfl
@[simp] theorem raise_mem (k : FaultKind) (op : Byte) (n : Nat) (s : State) : (raise k op n s).mem = s.mem := rfl
@[simp] theorem raise_config (k : FaultKind) (op : Byte) (n : Nat) (s : State) : (raise k op n s).config = s.config := rfl

/-! ### `pushByte` writes SP and memory -/

@[simp] theorem pushByte_regs (s : State) (v : Byte) : (pushByte s v).regs = s.regs := rfl
@[simp] theorem pushByte_pc (s : State) (v : Byte) : (pushByte s v).pc = s.pc := rfl
@[simp] theorem pushByte_sp (s : State) (v : Byte) : (pushByte s v).sp = spDown s.sp := rfl
@[simp] theorem pushByte_flags (s : State) (v : Byte) : (pushByte s v).flags = s.flags := rfl
@[simp] theorem pushByte_runState (s : State) (v : Byte) : (pushByte s v).runState = s.runState := rfl
@[simp] theorem pushByte_faultRecord (s : State) (v : Byte) : (pushByte s v).faultRecord = s.faultRecord := rfl
@[simp] theorem pushByte_out (s : State) (v : Byte) : (pushByte s v).out = s.out := rfl
@[simp] theorem pushByte_mem (s : State) (v : Byte) : (pushByte s v).mem = s.mem.set (spDown s.sp).toNat v := rfl
@[simp] theorem pushByte_config (s : State) (v : Byte) : (pushByte s v).config = s.config := rfl

/-! ### `popSp` writes SP -/

@[simp] theorem popSp_regs (s : State) : (popSp s).regs = s.regs := rfl
@[simp] theorem popSp_pc (s : State) : (popSp s).pc = s.pc := rfl
@[simp] theorem popSp_sp (s : State) : (popSp s).sp = spUp s.sp := rfl
@[simp] theorem popSp_flags (s : State) : (popSp s).flags = s.flags := rfl
@[simp] theorem popSp_runState (s : State) : (popSp s).runState = s.runState := rfl
@[simp] theorem popSp_faultRecord (s : State) : (popSp s).faultRecord = s.faultRecord := rfl
@[simp] theorem popSp_out (s : State) : (popSp s).out = s.out := rfl
@[simp] theorem popSp_mem (s : State) : (popSp s).mem = s.mem := rfl
@[simp] theorem popSp_config (s : State) : (popSp s).config = s.config := rfl

/-! ### Registers are read from the register file alone -/

@[simp] theorem setPc_readReg (s : State) (v : Byte) (r : Reg) : readReg (setPc s v) r = readReg s r := rfl
@[simp] theorem setSp_readReg (s : State) (v : Byte) (r : Reg) : readReg (setSp s v) r = readReg s r := rfl
@[simp] theorem setFlags_readReg (s : State) (f : Flags) (r : Reg) : readReg (setFlags s f) r = readReg s r := rfl
@[simp] theorem storeByte_readReg (s : State) (a v : Byte) (r : Reg) : readReg (storeByte s a v) r = readReg s r := rfl
@[simp] theorem emit_readReg (s : State) (v : Byte) (r : Reg) : readReg (emit s v) r = readReg s r := rfl
@[simp] theorem haltRun_readReg (s : State) (r : Reg) : readReg (haltRun s) r = readReg s r := rfl
@[simp] theorem raise_readReg (k : FaultKind) (op : Byte) (n : Nat) (s : State) (r : Reg) : readReg (raise k op n s) r = readReg s r := rfl
@[simp] theorem pushByte_readReg (s : State) (v : Byte) (r : Reg) : readReg (pushByte s v) r = readReg s r := rfl
@[simp] theorem popSp_readReg (s : State) (r : Reg) : readReg (popSp s) r = readReg s r := rfl

end Sys2Proof.Machine
end

