-- ==== Sys2Proof/Laws/Ops.lean ====
section
/-! SUPPORT. One lemma per shared operation that says what it does, for the proofs to cite instead of unfolding it. -/

namespace Sys2Proof.Machine

/-! ### Registers -/

@[simp] theorem readReg_writeReg_self (s : State) (r : Reg) (v : Byte) : readReg (writeReg s r v) r = v := by
  simp [readReg, writeReg]

theorem readReg_writeReg_ne (s : State) {r r' : Reg} (v : Byte) (h : r' ≠ r) :
    readReg (writeReg s r v) r' = readReg s r' := by
  have hne : r.val ≠ r'.val := fun e => h (Fin.ext e.symm)
  simp [readReg, writeReg, Vector.getElem_set_ne _ _ hne]

/-! ### Operands -/

@[simp] theorem regOf_regByte (r : Reg) : regOf (regByte r) = some r := by
  have h : r.val < 2 ^ 8 := Nat.lt_of_lt_of_le r.isLt (by decide)
  have h' : r.val < 256 := h
  simp [regOf, regByte, Nat.mod_eq_of_lt h']

/-- A byte above 7 names no register. -/
theorem regOf_eq_none {b : Byte} (h : 7 < b.toNat) : regOf b = none := by
  rw [regOf, dif_neg (by omega)]

/-- A byte up to 7 is the byte of the register it names. -/
theorem regOf_eq_some {b : Byte} (h : b.toNat ≤ 7) : ∃ r : Reg, regOf b = some r ∧ b = regByte r := by
  refine ⟨⟨b.toNat, by omega⟩, by rw [regOf, dif_pos (by omega)], ?_⟩
  simp [regByte]

@[simp] theorem withReg_regByte (k : Opcode) (r : Reg) (s : State) (go : Reg → State) :
    withReg k (regByte r) s go = go r := by simp [withReg]

/-- A bad register operand: BadRegister, and nothing else. -/
theorem withReg_bad (k : Opcode) {b : Byte} (h : 7 < b.toNat) (s : State) (go : Reg → State) :
    withReg k b s go = raise .badRegister (opcodeByte s k) b.toNat s := by simp [withReg, regOf_eq_none h]

@[simp] theorem withRegs_regByte (k : Opcode) (ra rb : Reg) (s : State) (go : Reg → Reg → State) :
    withRegs k (regByte ra) (regByte rb) s go = go ra rb := by simp [withRegs]

/-! ### The ALU datapath -/

theorem throughAlu_add (k : Opcode) (ra rb : Reg) (s : State) (go : State → State) :
    throughAlu k .add ra rb s go =
      go (writeReg s ra (BitVec.ofNat 8 (((readReg s ra).toNat + (readReg s rb).toNat) % 256))) := rfl

theorem throughAlu_mul (k : Opcode) (ra rb : Reg) (s : State) (go : State → State) :
    throughAlu k .mul ra rb s go =
      go (writeReg s ra (BitVec.ofNat 8 (((readReg s ra).toNat * (readReg s rb).toNat) % 256))) := rfl

theorem throughAlu_cmp (k : Opcode) (ra rb : Reg) (s : State) (go : State → State) :
    throughAlu k .cmp ra rb s go = go (setFlags s (compareFlags (readReg s ra) (readReg s rb))) := rfl

/-! ### The stack pointer -/

theorem spDown_toNat (sp : Byte) : (spDown sp).toNat = (sp.toNat + 255) % 256 := by
  simp [spDown, Config.spMod]

theorem spUp_toNat (sp : Byte) : (spUp sp).toNat = (sp.toNat + 1) % 256 := by
  simp [spUp, Config.spMod]

@[simp] theorem spUp_spDown (sp : Byte) : spUp (spDown sp) = sp := by
  apply BitVec.eq_of_toNat_eq
  rw [spUp_toNat, spDown_toNat]
  have := sp.isLt
  omega

/-! ### The sequential next PC -/

/-- SeqNext inside memory advances PC. -/
theorem seqNext_inside (k : Opcode) {n : Nat} {s : State} (h : s.pc.toNat + n ≤ 255) :
    seqNext k n s = setPc s (BitVec.ofNat 8 (s.pc.toNat + n)) := by
  rw [seqNext, if_neg (by omega)]

/-- SeqNext past the end of memory raises OutOfBounds. -/
theorem seqNext_outside (k : Opcode) {n : Nat} {s : State} (h : s.pc.toNat + n > 255) :
    seqNext k n s = raise .outOfBounds (opcodeByte s k) (s.pc.toNat + n) s := by
  rw [seqNext, if_pos h]

/-- Everything SeqNext can do. -/
theorem seqNext_cases (k : Opcode) (n : Nat) (s : State) :
    (s.pc.toNat + n ≤ 255 ∧ seqNext k n s = setPc s (BitVec.ofNat 8 (s.pc.toNat + n))) ∨
    (s.pc.toNat + n > 255 ∧ seqNext k n s = raise .outOfBounds (opcodeByte s k) (s.pc.toNat + n) s) := by
  by_cases h : s.pc.toNat + n > 255
  · exact .inr ⟨h, seqNext_outside k h⟩
  · exact .inl ⟨by omega, seqNext_inside k (by omega)⟩

/-- The number PC holds after SeqNext inside memory. -/
theorem seqNext_pc_toNat (k : Opcode) {n : Nat} {s : State} (h : s.pc.toNat + n ≤ 255) :
    (seqNext k n s).pc.toNat = s.pc.toNat + n := by
  rw [seqNext_inside k h, setPc_pc, BitVec.toNat_ofNat]
  omega

/-! ### What SeqNext leaves alone -/

@[simp] theorem seqNext_regs (k : Opcode) (n : Nat) (s : State) : (seqNext k n s).regs = s.regs := by
  rcases seqNext_cases k n s with ⟨-, e⟩ | ⟨-, e⟩ <;> rw [e] <;> rfl

@[simp] theorem seqNext_sp (k : Opcode) (n : Nat) (s : State) : (seqNext k n s).sp = s.sp := by
  rcases seqNext_cases k n s with ⟨-, e⟩ | ⟨-, e⟩ <;> rw [e] <;> rfl

@[simp] theorem seqNext_flags (k : Opcode) (n : Nat) (s : State) : (seqNext k n s).flags = s.flags := by
  rcases seqNext_cases k n s with ⟨-, e⟩ | ⟨-, e⟩ <;> rw [e] <;> rfl

@[simp] theorem seqNext_out (k : Opcode) (n : Nat) (s : State) : (seqNext k n s).out = s.out := by
  rcases seqNext_cases k n s with ⟨-, e⟩ | ⟨-, e⟩ <;> rw [e] <;> rfl

@[simp] theorem seqNext_mem (k : Opcode) (n : Nat) (s : State) : (seqNext k n s).mem = s.mem := by
  rcases seqNext_cases k n s with ⟨-, e⟩ | ⟨-, e⟩ <;> rw [e] <;> rfl

@[simp] theorem seqNext_config (k : Opcode) (n : Nat) (s : State) : (seqNext k n s).config = s.config := by
  rcases seqNext_cases k n s with ⟨-, e⟩ | ⟨-, e⟩ <;> rw [e] <;> rfl

@[simp] theorem seqNext_readReg (k : Opcode) (n : Nat) (s : State) (r : Reg) : readReg (seqNext k n s) r = readReg s r := by
  rcases seqNext_cases k n s with ⟨-, e⟩ | ⟨-, e⟩ <;> rw [e] <;> rfl

end Sys2Proof.Machine
end

