-- ==== Sys2Proof/Laws/Exec.lean ====
section
/-! SUPPORT. Everything an instruction can do, said once: the inversion of `exec` that frames and invariants are derived from. -/

namespace Sys2Proof.Machine

/-- A register operand is bad, or names a register. -/
theorem withReg_cases (k : Opcode) (b : Byte) (s : State) (go : Reg → State) :
    (7 < b.toNat ∧ withReg k b s go = raise .badRegister (opcodeByte s k) b.toNat s) ∨
    ∃ r, b = regByte r ∧ withReg k b s go = go r := by
  by_cases h : 7 < b.toNat
  · exact .inl ⟨h, withReg_bad k h s go⟩
  · obtain ⟨r, -, hr⟩ := regOf_eq_some (b := b) (by omega)
    exact .inr ⟨r, hr, by rw [hr, withReg_regByte]⟩

/-- Two register operands: one is bad, or both name registers. -/
theorem withRegs_cases (k : Opcode) (a b : Byte) (s : State) (go : Reg → Reg → State) :
    (∃ c, (c = a ∨ c = b) ∧ 7 < c.toNat ∧ withRegs k a b s go = raise .badRegister (opcodeByte s k) c.toNat s) ∨
    ∃ ra rb, a = regByte ra ∧ b = regByte rb ∧ withRegs k a b s go = go ra rb := by
  rcases withReg_cases k a s fun ra => withReg k b s fun rb => go ra rb with ⟨h, e⟩ | ⟨ra, ha, e⟩
  · exact .inl ⟨a, .inl rfl, h, e⟩
  · rcases withReg_cases k b s fun rb => go ra rb with ⟨h, e'⟩ | ⟨rb, hb, e'⟩
    · exact .inl ⟨b, .inr rfl, h, e.trans e'⟩
    · exact .inr ⟨ra, rb, ha, hb, e.trans e'⟩

/-- The ways an instruction runs from a state: `Ran s i t` when `exec i s` answers `t`. -/
inductive Ran (s : State) : Instr → State → Prop where
  | badRegister (i : Instr) (b : Byte) (mem : b ∈ i.registerOperands) (bad : 7 < b.toNat) :
      Ran s i (raise .badRegister (opcodeByte s i.opcode) b.toNat s)
  | ldi (ra : Reg) (b : Byte) : Ran s (.ldi (regByte ra) b) (seqNext .ldi 3 (writeReg s ra b))
  | add (ra rb : Reg) : Ran s (.add (regByte ra) (regByte rb)) (seqNext .add 3
      (writeReg s ra (BitVec.ofNat 8 (((readReg s ra).toNat + (readReg s rb).toNat) % 256))))
  | mul (ra rb : Reg) : Ran s (.mul (regByte ra) (regByte rb)) (seqNext .mul 3
      (writeReg s ra (BitVec.ofNat 8 (((readReg s ra).toNat * (readReg s rb).toNat) % 256))))
  | cmp (ra rb : Reg) : Ran s (.cmp (regByte ra) (regByte rb)) (seqNext .cmp 3
      (setFlags s (compareFlags (readReg s ra) (readReg s rb))))
  | prn (ra : Reg) : Ran s (.prn (regByte ra)) (seqNext .prn 2 (emit s (readReg s ra)))
  | push (ra : Reg) : Ran s (.push (regByte ra)) (seqNext .push 2 (pushByte s (readReg s ra)))
  | pop (ra : Reg) : Ran s (.pop (regByte ra)) (seqNext .pop 2 (writeReg (popSp s) ra (poppedByte s)))
  | jmp (ra : Reg) : Ran s (.jmp (regByte ra)) (setPc s (readReg s ra))
  | jeqTaken (ra : Reg) (e : s.flags.e = true) : Ran s (.jeq (regByte ra)) (setPc s (readReg s ra))
  | jeqNext (ra : Reg) (e : s.flags.e = false) : Ran s (.jeq (regByte ra)) (seqNext .jeq 2 s)
  | jneTaken (ra : Reg) (e : s.flags.e = false) : Ran s (.jne (regByte ra)) (setPc s (readReg s ra))
  | jneNext (ra : Reg) (e : s.flags.e = true) : Ran s (.jne (regByte ra)) (seqNext .jne 2 s)
  | call (ra : Reg) (fits : s.pc.toNat + 2 ≤ 255) : Ran s (.call (regByte ra))
      (setPc (pushByte s (BitVec.ofNat 8 (s.pc.toNat + 2))) (readReg s ra))
  | callOutside (ra : Reg) (outside : s.pc.toNat + 2 > 255) : Ran s (.call (regByte ra))
      (raise .outOfBounds (opcodeByte s .call) (s.pc.toNat + 2) s)
  | ret : Ran s .ret (setPc (popSp s) (poppedByte s))
  | hlt : Ran s .hlt (haltRun s)

theorem ran_oneReg {s : State} {i : Instr} {a : Byte} {go : Reg → State} (ha : a ∈ i.registerOperands)
    (h : ∀ r, a = regByte r → Ran s i (go r)) : Ran s i (withReg i.opcode a s go) := by
  rcases withReg_cases i.opcode a s go with ⟨hb, e⟩ | ⟨r, hr, e⟩
  · exact e ▸ .badRegister i a ha hb
  · exact e ▸ h r hr

theorem ran_twoRegs {s : State} {i : Instr} {a b : Byte} {go : Reg → Reg → State} (ha : a ∈ i.registerOperands)
    (hb : b ∈ i.registerOperands) (h : ∀ ra rb, a = regByte ra → b = regByte rb → Ran s i (go ra rb)) :
    Ran s i (withRegs i.opcode a b s go) := by
  rcases withRegs_cases i.opcode a b s go with ⟨c, hc, hbad, e⟩ | ⟨ra, rb, ea, eb, e⟩
  · exact e ▸ .badRegister i c (by rcases hc with rfl | rfl <;> assumption) hbad
  · exact e ▸ h ra rb ea eb

/-- The inversion of `exec`: whatever it answers is one of the ways its instruction runs. -/
theorem exec_ran {i : Instr} {s t : State} (h : exec i s = .next t) : Ran s i t := by
  cases i with
  | ldi a b =>
    cases h
    exact ran_oneReg (i := .ldi a b) (by simp [Instr.registerOperands]) fun r hr => by subst hr; exact .ldi r b
  | add a b =>
    cases h
    exact ran_twoRegs (i := .add a b) (by simp [Instr.registerOperands]) (by simp [Instr.registerOperands])
      fun ra rb ha hb => by subst ha hb; exact .add ra rb
  | mul a b =>
    cases h
    exact ran_twoRegs (i := .mul a b) (by simp [Instr.registerOperands]) (by simp [Instr.registerOperands])
      fun ra rb ha hb => by subst ha hb; exact .mul ra rb
  | cmp a b =>
    cases h
    exact ran_twoRegs (i := .cmp a b) (by simp [Instr.registerOperands]) (by simp [Instr.registerOperands])
      fun ra rb ha hb => by subst ha hb; exact .cmp ra rb
  | prn a =>
    cases h
    exact ran_oneReg (i := .prn a) (by simp [Instr.registerOperands]) fun r hr => by subst hr; exact .prn r
  | push a =>
    cases h
    exact ran_oneReg (i := .push a) (by simp [Instr.registerOperands]) fun r hr => by subst hr; exact .push r
  | pop a =>
    cases h
    exact ran_oneReg (i := .pop a) (by simp [Instr.registerOperands]) fun r hr => by subst hr; exact .pop r
  | jmp a =>
    cases h
    exact ran_oneReg (i := .jmp a) (by simp [Instr.registerOperands]) fun r hr => by subst hr; exact .jmp r
  | jeq a =>
    cases h
    refine ran_oneReg (i := .jeq a) (by simp [Instr.registerOperands]) fun r hr => ?_
    subst hr
    split
    · exact .jeqTaken r ‹_›
    · next h => exact .jeqNext r (Bool.eq_false_iff.mpr h)
  | jne a =>
    cases h
    refine ran_oneReg (i := .jne a) (by simp [Instr.registerOperands]) fun r hr => ?_
    subst hr
    split
    · exact .jneNext r ‹_›
    · next h => exact .jneTaken r (Bool.eq_false_iff.mpr h)
  | call a =>
    cases h
    refine ran_oneReg (i := .call a) (by simp [Instr.registerOperands]) fun r hr => ?_
    subst hr
    split
    · exact .callOutside r ‹_›
    · exact .call r (by omega)
  | ret => cases h; exact .ret
  | hlt => cases h; exact .hlt

/-- No instruction answers a fault or a refusal. -/
theorem exec_answers (i : Instr) (s : State) : ∃ t, exec i s = .next t := by
  cases i <;> exact ⟨_, rfl⟩

end Sys2Proof.Machine
end

