-- ==== Sys2Proof/Laws/PerInstr.lean ====
section
/-! SUPPORT. The per-instruction family EncodeLength: an instruction's encoding has the length of its row (R52, R58), under
every opcode map. -/

namespace Sys2Proof.Laws.EncodeLength

/-- The encoding is as long as the opcode's row says. -/
def Statement (i : Instr) : Prop := ∀ m : OpcodeMap, (encode m i).length = i.opcode.length

theorem ldi (a b : Byte) : Statement (.ldi a b) := fun _ => rfl
theorem add (a b : Byte) : Statement (.add a b) := fun _ => rfl
theorem mul (a b : Byte) : Statement (.mul a b) := fun _ => rfl
theorem cmp (a b : Byte) : Statement (.cmp a b) := fun _ => rfl
theorem prn (a : Byte) : Statement (.prn a) := fun _ => rfl
theorem push (a : Byte) : Statement (.push a) := fun _ => rfl
theorem pop (a : Byte) : Statement (.pop a) := fun _ => rfl
theorem jmp (a : Byte) : Statement (.jmp a) := fun _ => rfl
theorem jeq (a : Byte) : Statement (.jeq a) := fun _ => rfl
theorem jne (a : Byte) : Statement (.jne a) := fun _ => rfl
theorem call (a : Byte) : Statement (.call a) := fun _ => rfl
theorem ret : Statement .ret := fun _ => rfl
theorem hlt : Statement .hlt := fun _ => rfl

end Sys2Proof.Laws.EncodeLength
end

