-- ==== Sys2Proof/Laws/Step.lean ====
section
/-! SUPPORT. What fetching and one step can do. -/

namespace Sys2Proof.Machine

/-! ### Fetch -/

/-- Inside memory, reading bytes reads each of them. -/
theorem readFrom_length (m : Memory) (addr n : Nat) : (readFrom m addr n).length = min n (256 - addr) := by
  induction n generalizing addr with
  | zero => simp [readFrom]
  | succ n ih =>
    by_cases h : addr > 255
    · have : 256 - addr = 0 := by omega
      simp [readFrom, memRead, h, this]
    · rw [readFrom, memRead_of_le m (by omega), List.length_cons, ih]
      omega

/-- The bytes read are the cells' bytes. -/
theorem readFrom_getElem {m : Memory} {addr n j : Nat} (h : j < (readFrom m addr n).length) :
    (readFrom m addr n)[j] = m.cell (addr + j) := by
  induction n generalizing addr j with
  | zero => simp [readFrom] at h
  | succ n ih =>
    by_cases ha : addr > 255
    · simp [readFrom, memRead, ha] at h
    · have e : readFrom m addr (n + 1) = m.cell addr :: readFrom m (addr + 1) n := by
        rw [readFrom, memRead_of_le m (by omega)]
      cases j with
      | zero => simp [e]
      | succ j =>
        simp only [e, List.length_cons, List.getElem_cons_succ] at h ⊢
        rw [ih (by omega), Nat.add_right_comm, Nat.add_assoc]

/-- With a known opcode at PC, the operands it uses are read and decoded. -/
theorem fetchDecode_of_opcode {s : State} {k : Opcode} (h : opcodeOf s.config.opcodes (fetchOpcode s) = some k) :
    fetchDecode s = decodeOperands k (readFrom s.mem (s.pc.toNat + 1) k.operandCount) := by
  simp [fetchDecode, decode, fetchOperands, h]

/-- A fetched instruction: the opcode byte at PC is its own, and its bytes lie inside memory. -/
theorem fetchDecode_ok {s : State} {i : Instr} {rest : List Byte} (h : fetchDecode s = .ok (i, rest)) :
    opcodeOf s.config.opcodes (fetchOpcode s) = some i.opcode ∧ opcodeByte s i.opcode = fetchOpcode s ∧
      s.pc.toNat + i.opcode.operandCount ≤ 255 ∧
      i.operands ++ rest = readFrom s.mem (s.pc.toNat + 1) i.opcode.operandCount := by
  cases hk : opcodeOf s.config.opcodes (fetchOpcode s) with
  | none => simp [fetchDecode, decode, hk] at h
  | some k =>
    rw [fetchDecode_of_opcode hk] at h
    obtain ⟨rfl, hb⟩ := decodeOperands_ok h
    refine ⟨rfl, opcodeOf_some hk, ?_, hb.symm⟩
    have hl := readFrom_length s.mem (s.pc.toNat + 1) i.opcode.operandCount
    rw [hb, List.length_append, operands_length] at hl
    have := s.pc.isLt
    omega

/-- Operands decode only to a missing operand or an instruction; which one is missing says how many bytes there were. -/
theorem decodeOperands_error {k : Opcode} {bs : List Byte} {r : Reject} (h : decodeOperands k bs = .error r) :
    (r = .missingOperandA ∧ bs.length = 0 ∧ 1 ≤ k.operandCount) ∨
    (r = .missingOperandB ∧ bs.length = 1 ∧ k.operandCount = 2) := by
  cases k <;> rcases bs with _ | ⟨a, _ | ⟨b, bs⟩⟩ <;>
    simp_all [decodeOperands, oneOperand, twoOperands, Opcode.operandCount]

/-- The fault of a rejected fetch: UnknownInstruction, or OutOfBounds at address 256, where a used operand would lie. -/
theorem raiseReject_of_rejected {s : State} {r : Reject} (h : fetchDecode s = .error r) :
    (opcodeOf s.config.opcodes (fetchOpcode s) = none ∧
      raiseReject r s = raise .unknownInstruction (fetchOpcode s) 0 s) ∨
    ∃ k, opcodeOf s.config.opcodes (fetchOpcode s) = some k ∧ s.pc.toNat + k.operandCount > 255 ∧
      raiseReject r s = raise .outOfBounds (fetchOpcode s) 256 s := by
  cases hk : opcodeOf s.config.opcodes (fetchOpcode s) with
  | none =>
    left
    simp only [fetchDecode, decode, hk, Except.error.injEq] at h
    exact ⟨rfl, h ▸ rfl⟩
  | some k =>
    refine .inr ⟨k, rfl, ?_⟩
    rw [fetchDecode_of_opcode hk] at h
    have hpc := s.pc.isLt
    have hl := readFrom_length s.mem (s.pc.toNat + 1) k.operandCount
    rcases decodeOperands_error h with ⟨rfl, h0, hc⟩ | ⟨rfl, h1, hc⟩
    · have : s.pc.toNat + 1 = 256 := by omega
      exact ⟨by omega, by rw [raiseReject, this]⟩
    · have : s.pc.toNat + 2 = 256 := by omega
      exact ⟨by omega, by rw [raiseReject, this]⟩

/-! ### One step -/

/-- A stopped machine's step answers the state unchanged. -/
theorem step_of_stopped {s : State} (h : s.runState ≠ .running) : step s = .next s := by
  rw [step]
  split <;> simp_all

theorem step_of_fetched {s : State} {i : Instr} {rest : List Byte} (hr : s.runState = .running)
    (h : fetchDecode s = .ok (i, rest)) : step s = exec i s := by simp [step, hr, h]

theorem step_of_rejected {s : State} {r : Reject} (hr : s.runState = .running) (h : fetchDecode s = .error r) :
    step s = .next (raiseReject r s) := by simp [step, hr, h]

/-- Everything a step can do: nothing when stopped; a fetch fault; or an instruction, run one of its ways. -/
theorem step_cases {s t : State} (h : step s = .next t) :
    (s.runState ≠ .running ∧ t = s) ∨
    (s.runState = .running ∧ opcodeOf s.config.opcodes (fetchOpcode s) = none ∧
      t = raise .unknownInstruction (fetchOpcode s) 0 s) ∨
    (∃ k, s.runState = .running ∧ opcodeOf s.config.opcodes (fetchOpcode s) = some k ∧
      s.pc.toNat + k.operandCount > 255 ∧ t = raise .outOfBounds (fetchOpcode s) 256 s) ∨
    ∃ i, s.runState = .running ∧ opcodeOf s.config.opcodes (fetchOpcode s) = some i.opcode ∧
      opcodeByte s i.opcode = fetchOpcode s ∧ s.pc.toNat + i.opcode.operandCount ≤ 255 ∧ Ran s i t := by
  by_cases hr : s.runState = .running
  · cases hf : fetchDecode s with
    | error r =>
      rw [step_of_rejected hr hf] at h
      cases h
      rcases raiseReject_of_rejected hf with ⟨hk, e⟩ | ⟨k, hk, hc, e⟩
      · exact .inr (.inl ⟨hr, hk, e⟩)
      · exact .inr (.inr (.inl ⟨k, hr, hk, hc, e⟩))
    | ok p =>
      obtain ⟨i, rest⟩ := p
      rw [step_of_fetched hr hf] at h
      obtain ⟨hk, hb, hc, -⟩ := fetchDecode_ok hf
      exact .inr (.inr (.inr ⟨i, hr, hk, hb, hc, exec_ran h⟩))
  · rw [step_of_stopped hr] at h
    cases h
    exact .inl ⟨hr, rfl⟩

end Sys2Proof.Machine
end

