-- ==== Sys2Proof/Tests/Slice0.lean ====
section
/-! SUPPORT. The model's own tests, one step each: well-formedness, decoding from words written out by hand, the spec's test
vectors (95_test_vectors.md, V<n>), and for every statement with hypotheses a concrete state and operands that meet them. -/

namespace Sys2Proof.Tests

open Sys2Proof.Machine

/-- The reset machine with PC at an address and bytes stored there. -/
def machineAt (pc : Byte) (bytes : List Byte) : State :=
  { State.reset with pc := pc, mem := storeFrom [] pc.toNat bytes }

/-- A machine with registers set. -/
def withRegisters (s : State) : List (Reg × Byte) → State
  | []             => s
  | (r, v) :: rest => withRegisters (writeReg s r v) rest

/-- Something of the next state, where there is one. -/
def after {α : Type} (o : Host.Outcome State Fault Refusal) (f : State → α) : Option α :=
  match o with
  | .next t    => some (f t)
  | .fault _   => none
  | .refused _ => none

/-! ### WellFormed refuses what names no register -/

theorem test_illformed_operand_a : (Instr.add 8 0).wellFormed = false := by decide
theorem test_illformed_operand_b : (Instr.add 0 8).wellFormed = false := by decide
theorem test_illformed_ldi : (Instr.ldi 8 0).wellFormed = false := by decide
theorem test_illformed_one_operand : (Instr.push 255).wellFormed = false := by decide
theorem test_wellformed_immediate_unchecked : (Instr.ldi 7 255).wellFormed = true := by decide

/-! ### Decoding: words written out from 30_encoding.md R52 and R53 -/

theorem test_decode_ldi : decodeTableWord 24 0b00001000_00000000_10000010 = some (.ldi 0 8) := by decide
theorem test_decode_add : decodeTableWord 24 0b00000010_00000001_10100000 = some (.add 1 2) := by decide
theorem test_decode_mul : decodeTableWord 24 0b00000001_00000000_10100010 = some (.mul 0 1) := by decide
theorem test_decode_cmp : decodeTableWord 24 0b00000011_00000001_10100111 = some (.cmp 1 3) := by decide
theorem test_decode_prn : decodeTableWord 16 0b00000110_01000111 = some (.prn 6) := by decide
theorem test_decode_push : decodeTableWord 16 0b00000001_01000101 = some (.push 1) := by decide
theorem test_decode_pop : decodeTableWord 16 0b00000011_01000110 = some (.pop 3) := by decide
theorem test_decode_jmp : decodeTableWord 16 0b00000010_01010100 = some (.jmp 2) := by decide
theorem test_decode_jeq : decodeTableWord 16 0b00000100_01010101 = some (.jeq 4) := by decide
theorem test_decode_jne : decodeTableWord 16 0b00000100_01010110 = some (.jne 4) := by decide
theorem test_decode_call : decodeTableWord 16 0b00000010_01010000 = some (.call 2) := by decide
theorem test_decode_ret : decodeTableWord 8 0b00010001 = some .ret := by decide
theorem test_decode_hlt : decodeTableWord 8 0b00000001 = some .hlt := by decide
theorem test_decode_bad_register_is_no_other_encoding : decodeTableWord 24 0x0108A0 = some (.add 8 1) := by decide
theorem test_decode_unassigned : decode OpcodeMap.ls8 0xFF [] = .error .unknownInstruction := by rfl
theorem test_decode_missing_a : decode OpcodeMap.ls8 0xA0 [] = .error .missingOperandA := by rfl
theorem test_decode_missing_b : decode OpcodeMap.ls8 0xA0 [1] = .error .missingOperandB := by rfl
theorem test_default_opcode_map_legal : OpcodeMap.ls8.legal := by decide
theorem test_repeated_byte_not_legal : ¬ ({ OpcodeMap.ls8 with add := 0xA2 } : OpcodeMap).legal := by decide
theorem test_unassigned_byte_not_legal : ¬ ({ OpcodeMap.ls8 with ret := 0xFF } : OpcodeMap).legal := by decide

/-! ### One step of each instruction (95_test_vectors.md, Part 2) -/

/-- V1. -/
theorem test_add_wraps : after (step (withRegisters (machineAt 20 [0xA0, 1, 2]) [(1, 200), (2, 100)]))
    (fun t => (readReg t 1, t.pc)) = some (44, 23) := by decide
/-- V5: both operands the same register. -/
theorem test_add_doubles : after (step (withRegisters (machineAt 20 [0xA0, 3, 3]) [(3, 128)]))
    (fun t => readReg t 3) = some 0 := by decide
/-- V7. -/
theorem test_mul_wraps : after (step (withRegisters (machineAt 20 [0xA2, 0, 1]) [(0, 20), (1, 13)]))
    (fun t => (readReg t 0, readReg t 1)) = some (4, 13) := by decide
/-- V9. -/
theorem test_mul_unsigned : after (step (withRegisters (machineAt 20 [0xA2, 0, 1]) [(0, 255), (1, 255)]))
    (fun t => readReg t 0) = some 1 := by decide
/-- V12. -/
theorem test_cmp_less : after (step (withRegisters (machineAt 20 [0xA7, 1, 2]) [(1, 0), (2, 255)]))
    (fun t => t.flags) = some ⟨false, false, true⟩ := by decide
/-- V11. -/
theorem test_cmp_equal : after (step (withRegisters (machineAt 20 [0xA7, 1, 2]) [(1, 5), (2, 5)]))
    (fun t => (t.flags, t.pc)) = some (⟨true, false, false⟩, 23) := by decide
/-- V21. -/
theorem test_ldi_r7 : after (step (machineAt 0 [0x82, 7, 255])) (fun t => (readReg t 7, t.sp)) = some (255, 244) := by
  decide
/-- V23. -/
theorem test_ldi_bad_register : after (step (machineAt 0 [0x82, 8, 5])) (fun t => t.faultRecord) =
    some (some ⟨.badRegister, 0, 0x82, 8⟩) := by decide
/-- V31. -/
theorem test_prn_appends : after (step { machineAt 0 [0x47, 0] with out := [8] }) (fun t => t.out) = some [8, 0] := by
  decide
/-- V32: the byte is emitted before SeqNext faults. -/
theorem test_prn_overflow : after (step (withRegisters (machineAt 254 [0x47, 0]) [(0, 5)]))
    (fun t => (t.out, t.faultRecord, t.pc)) = some ([5], some ⟨.outOfBounds, 254, 0x47, 256⟩, 254) := by decide
/-- V25. -/
theorem test_push_stores_below : after (step (withRegisters (machineAt 10 [0x45, 0]) [(0, 0x11)]))
    (fun t => (t.sp, t.mem.cell 243, t.mem.cell 244, t.pc)) = some (243, 0x11, 0, 12) := by decide
/-- V24. -/
theorem test_push_wraps : after (step (withRegisters { machineAt 10 [0x45, 0] with sp := 0 } [(0, 0x5A)]))
    (fun t => (t.sp, t.mem.cell 255)) = some (255, 0x5A) := by decide
/-- V26. -/
theorem test_pop_wraps : after (step { machineAt 10 [0x46, 3] with sp := 255, mem := [(10, 0x46), (11, 3), (255, 0x42)] })
    (fun t => (readReg t 3, t.sp, t.mem.cell 255)) = some (0x42, 0, 0x42) := by decide
/-- V29. -/
theorem test_pop_operand_missing : after (step (machineAt 255 [0x46])) (fun t => (t.faultRecord, t.sp)) =
    some (some ⟨.outOfBounds, 255, 0x46, 256⟩, 244) := by decide
/-- V45: JMP at 254 does not fault. -/
theorem test_jmp_at_254 : after (step (withRegisters (machineAt 254 [0x54, 0]) [(0, 5)]))
    (fun t => (t.pc, t.runState)) = some (5, .running) := by decide
/-- V47. -/
theorem test_jeq_taken :
    after (step (setFlags (withRegisters (machineAt 24 [0x55, 4]) [(4, 15)]) ⟨true, false, false⟩))
      (fun t => t.pc) = some 15 := by decide
/-- V48. -/
theorem test_jeq_not_taken : after (step (withRegisters (machineAt 24 [0x55, 4]) [(4, 15)])) (fun t => t.pc) = some 26 := by
  decide
/-- V52. -/
theorem test_jne_taken :
    after (step (setFlags (withRegisters (machineAt 24 [0x56, 4]) [(4, 15)]) ⟨false, true, false⟩))
      (fun t => t.pc) = some 15 := by decide
/-- V51. -/
theorem test_jne_not_taken :
    after (step (setFlags (withRegisters (machineAt 24 [0x56, 4]) [(4, 15)]) ⟨true, false, false⟩))
      (fun t => t.pc) = some 26 := by decide
/-- V53. -/
theorem test_call_pushes : after (step (withRegisters (machineAt 3 [0x50, 2]) [(2, 8)]))
    (fun t => (t.mem.cell 243, t.sp, t.pc)) = some (5, 243, 8) := by decide
/-- V54. -/
theorem test_call_at_254 : after (step (machineAt 254 [0x50, 0])) (fun t => (t.faultRecord, t.sp, t.mem.cell 243)) =
    some (some ⟨.outOfBounds, 254, 0x50, 256⟩, 244, 0) := by decide
/-- V55. -/
theorem test_ret_pops : after (step { machineAt 11 [] with sp := 243, mem := [(11, 0x11), (243, 5)] })
    (fun t => (t.pc, t.sp)) = some (5, 244) := by decide
/-- V56. -/
theorem test_ret_at_255 : after (step (machineAt 255 [0x11])) (fun t => (t.pc, t.sp, t.runState)) =
    some (0, 245, .running) := by decide
/-- V57. -/
theorem test_hlt_at_255 : after (step (machineAt 255 [0x01])) (fun t => (t.runState, t.pc)) = some (.halted, 255) := by
  decide
/-- V58. -/
theorem test_halted_stays : after (step (haltRun (machineAt 3 [0x01]))) id = some (haltRun (machineAt 3 [0x01])) := by
  decide
/-- V63: the opcode is checked before any operand is read. -/
theorem test_unknown_at_255 : after (step (machineAt 255 [0xFF])) (fun t => (t.runState, t.faultRecord)) =
    some (.faulted, some ⟨.unknownInstruction, 255, 0xFF, 0⟩) := by decide
/-- V65: operand a is checked before operand b. -/
theorem test_bad_register_order : after (step (machineAt 20 [0xA0, 9, 8])) (fun t => t.faultRecord) =
    some (some ⟨.badRegister, 20, 0xA0, 9⟩) := by decide
/-- R104: a PUSH that overwrites its own opcode byte records the byte it was fetched as. -/
theorem test_push_over_itself :
    after (step (withRegisters { machineAt 254 [0x45, 1] with sp := 255 } [(1, 7)]))
      (fun t => (t.mem.cell 254, t.faultRecord)) = some (7, some ⟨.outOfBounds, 254, 0x45, 256⟩) := by decide

/-! ### The ALU function alone (V35 to V41) -/

theorem test_alu_not : alu .not 0x12 0x3C = .result 0xC3 := by decide
theorem test_alu_and : alu .and 0xF0 0x3C = .result 0x30 := by decide
theorem test_alu_or : alu .or 0xF0 0x3C = .result 0xFC := by decide
theorem test_alu_xor : alu .xor 0xF0 0x3C = .result 0xCC := by decide
theorem test_alu_nop : alu .nop 0x12 0x34 = .result 0 := by decide
theorem test_alu_other : alu .other 0x12 0x34 = .unsupported := by decide

/-! ### Placing an instruction, and the host's side -/

theorem test_fetch_word_runs : after (step (State.reset.withFetchWord 24 0x080082)) (fun t => (readReg t 0, t.pc)) =
    some (8, 3) := by decide
theorem test_fetch_word_short : after (step (State.reset.withFetchWord 8 0x50)) (fun t => (t.pc, t.mem.cell 243)) =
    some (0, 2) := by decide
/-- 95_test_vectors.md T1: comments dropped, a line of other characters skipped. -/
theorem test_program_text :
    parseText ['1', '0', '0', '0', '0', '0', '1', '0', ' ', '#', 'L', '\n', '0', '1', 'x', '\n', '1', '\n'] =
      some [0x82, 1] := by decide
/-- 95_test_vectors.md T1: nine digits are a LoadError. -/
theorem test_program_text_nine_digits : hostLoad Config.default (some (List.replicate 9 '1')) = .failed .loadError 0 := by
  decide
theorem test_load_error_shown : (showLoadError Config.default).faultRecord = some ⟨.loadError, 0, 0, 0⟩ := by decide
theorem test_host_lines : hostLines [8, 255] = [['8'], ['2', '5', '5']] := by decide

/-! ### Witnesses: concrete states and operands that meet each statement's hypotheses -/

theorem opcode_bytes_exclude (m : OpcodeMap) (b : Byte) (h : Opcode.all.all (fun k => m.byteOf k != b) = true) :
    ∀ k, m.byteOf k ≠ b := by
  intro k
  have : k ∈ Opcode.all := by cases k <;> decide
  simpa using List.all_eq_true.mp h k this

/-- LDI, ADD, MUL and CMP at the last address where SeqNext fits. -/
theorem witness_three_byte_instructions : ∃ s : State, s.pc.toNat = 252 ∧ s.pc.toNat ≤ 252 :=
  ⟨machineAt 252 [], by decide⟩

/-- PRN and POP at the last address where SeqNext fits. -/
theorem witness_two_byte_instructions : ∃ s : State, s.pc.toNat = 253 ∧ s.pc.toNat ≤ 253 :=
  ⟨machineAt 253 [], by decide⟩

/-- PUSH, CALL, the push rule and CALL-then-RET, with SP at 0. -/
theorem witness_storing_instructions : ∃ s : State, s.mem.wf ∧ s.pc.toNat ≤ 253 ∧ s.sp = 0 :=
  ⟨{ machineAt 253 [0x45, 1] with sp := 0 }, by decide⟩

/-- PUSH then POP. -/
theorem witness_push_then_pop : ∃ s : State, s.mem.wf ∧ s.pc.toNat ≤ 251 := ⟨machineAt 251 [0x45, 1], by decide⟩

theorem witness_jeq_taken : ∃ s : State, s.flags.e = true ∧ s.pc.toNat = 255 :=
  ⟨setFlags (machineAt 255 []) ⟨true, false, false⟩, by decide⟩
theorem witness_jeq_next : ∃ s : State, s.flags.e = false ∧ s.pc.toNat ≤ 253 := ⟨machineAt 253 [], by decide⟩
theorem witness_jne_taken : ∃ s : State, s.flags.e = false ∧ s.pc.toNat = 255 := ⟨machineAt 255 [], by decide⟩
theorem witness_jne_next : ∃ s : State, s.flags.e = true ∧ s.pc.toNat ≤ 253 :=
  ⟨setFlags (machineAt 253 []) ⟨true, false, false⟩, by decide⟩

theorem witness_unknown_opcode : ∃ s : State, s.runState = .running ∧ ∀ k, s.config.opcodes.byteOf k ≠ s.opcodeAtPc :=
  ⟨machineAt 255 [0xFF], rfl, opcode_bytes_exclude _ _ (by decide)⟩

theorem witness_operand_a_missing : ∃ (s : State) (k : Opcode), s.runState = .running ∧ s.nameAtPc = some k ∧
    1 ≤ k.operandCount ∧ s.pc.toNat + 1 > 255 := ⟨machineAt 255 [0x47], .prn, by decide⟩
theorem witness_operand_b_missing : ∃ (s : State) (k : Opcode), s.runState = .running ∧ s.nameAtPc = some k ∧
    2 ≤ k.operandCount ∧ s.pc.toNat + 1 ≤ 255 ∧ s.pc.toNat + 2 > 255 := ⟨machineAt 254 [0xA0, 1], .add, by decide⟩
theorem witness_operands_present : ∃ (s : State) (k : Opcode), s.runState = .running ∧ s.nameAtPc = some k ∧
    s.pc.toNat + k.operandCount ≤ 255 := ⟨machineAt 255 [0x11], .ret, by decide⟩

theorem witness_bad_register : ∃ (s : State) (i : Instr) (rest : List Byte) (b : Byte), s.runState = .running ∧
    fetchDecode s = .ok (i, rest) ∧ i.registerOperands.find? (fun b => decide (7 < b.toNat)) = some b :=
  ⟨machineAt 20 [0xA0, 7, 8], .add 7 8, [], 8, rfl, rfl, by decide⟩
theorem witness_immediate_unchecked : ∃ (s : State) (ra : Reg) (b : Byte) (rest : List Byte), s.runState = .running ∧
    s.pc.toNat = 253 ∧ fetchDecode s = .ok (.ldi (regByte ra) b, rest) :=
  ⟨machineAt 253 [0x82, 7, 255], 7, 255, [], rfl, by decide, rfl⟩

theorem witness_call_return_address : ∃ s : State, 254 ≤ s.pc.toNat := ⟨machineAt 254 [0x50, 0], by decide⟩

theorem witness_sequential_overflow : ∃ (i : Instr) (s t : State), i.wellFormed = true ∧
    i.opcode ∈ [.ldi, .add, .mul, .cmp, .prn, .push, .pop] ∧ s.pc.toNat + i.opcode.length > 255 ∧
    exec i { s with pc := 0 } = .next t :=
  ⟨.add 1 2, machineAt 253 [0xA0, 1, 2], _, by decide, by decide, by decide, rfl⟩
theorem witness_sequential_overflow_jeq : ∃ (i : Instr) (s t : State), i.wellFormed = true ∧
    (i.opcode = .jeq ∧ s.flags.e = false) ∧ s.pc.toNat + i.opcode.length > 255 ∧ exec i { s with pc := 0 } = .next t :=
  ⟨.jeq 0, machineAt 254 [0x55, 0], _, by decide, by decide, by decide, rfl⟩
theorem witness_sequential_overflow_jne : ∃ (i : Instr) (s t : State), i.wellFormed = true ∧
    (i.opcode = .jne ∧ s.flags.e = true) ∧ s.pc.toNat + i.opcode.length > 255 ∧ exec i { s with pc := 0 } = .next t :=
  ⟨.jne 0, setFlags (machineAt 254 [0x56, 0]) ⟨true, false, false⟩, _, by decide, by decide, by decide, rfl⟩

/-- A running machine whose step faults, with OutOfBounds: for the statements about every faulting step. -/
theorem witness_faulting_step : ∃ (s t : State) (r : FaultRecord), s.runState = .running ∧ step s = .next t ∧
    t.runState = .faulted ∧ t.faultRecord = some r ∧ r.kind = .outOfBounds :=
  ⟨machineAt 253 [0xA0, 1, 2], _, _, rfl, rfl, rfl, rfl, rfl⟩

theorem witness_encoded_instruction : ∃ (s : State) (i : Instr), s.runState = .running ∧
    ∀ (j : Nat) (h : j < (encode s.config.opcodes i).length),
      memRead s.mem (s.pc.toNat + j) = some (encode s.config.opcodes i)[j] :=
  ⟨machineAt 253 [0xA0, 1, 2], .add 1 2, rfl, by decide⟩

theorem witness_stopped_halted : ∃ s : State, s.cleanEnd ∧ s.stopped := ⟨haltRun State.reset, by decide⟩
theorem witness_stopped_faulted : ∃ s : State, s.failedEnd ∧ s.stopped := ⟨showLoadError Config.default, by decide⟩

/-- A running machine's step that halts, and one that does not. -/
theorem witness_halting_step : ∃ s t : State, s.runState = .running ∧ step s = .next t ∧ t.runState = .halted :=
  ⟨machineAt 255 [0x01], _, rfl, rfl, rfl⟩

/-- A step of an instruction outside every family that writes something: for the whole-machine frames. -/
theorem witness_frames : ∃ s t : State, step s = .next t ∧ s.nameAtPc ≠ some .cmp ∧ s.nameAtPc ≠ some .prn ∧
    s.nameAtPc ∉ [some .push, some .pop, some .call, some .ret] ∧
    s.nameAtPc ∉ [some .ldi, some .add, some .mul, some .pop] :=
  ⟨machineAt 3 [0x54, 2], _, rfl, by decide, by decide, by decide, by decide⟩

theorem witness_invariant_step : ∃ s t : State, s.Inv ∧ step s = .next t :=
  ⟨machineAt 253 [0xA0, 1, 2], _,
    ⟨by decide, by decide, fun _ => rfl, fun h => absurd h (by decide)⟩, rfl⟩

theorem witness_fetch_other_memory : ∃ (s : State) (mem : Memory) (k : Opcode), s.nameAtPc = some k ∧ mem ≠ s.mem ∧
    ∀ j, j ≤ k.operandCount → mem.cell (s.pc.toNat + j) = s.mem.cell (s.pc.toNat + j) :=
  ⟨machineAt 10 [0x47, 1], [(10, 0x47), (11, 1), (12, 9)], .prn, by decide, by decide, by decide⟩

/-- A PUSH over the next opcode byte, with a byte that is none of the thirteen. -/
theorem witness_pushed_unknown_opcode : ∃ (s t : State), s.mem.wf ∧ s.runState = .running ∧ s.pc.toNat ≤ 253 ∧
    exec (.push (regByte 0)) s = .next t ∧ t.pc.toNat = (spDown s.sp).toNat ∧
    ∀ k, t.config.opcodes.byteOf k ≠ readReg s 0 :=
  ⟨{ machineAt 240 [0x45, 0] with sp := 243 }, _, by decide, rfl, by decide, rfl, by decide,
    opcode_bytes_exclude _ _ (by decide)⟩

/-- A PUSH at 253 over the next opcode byte, with one of the thirteen whose operands fit. -/
theorem witness_pushed_known_opcode : ∃ (s t : State) (k : Opcode), s.mem.wf ∧ s.runState = .running ∧ s.pc.toNat = 253 ∧
    exec (.push (regByte 0)) s = .next t ∧ t.pc.toNat = (spDown s.sp).toNat ∧
    t.config.opcodes.byteOf k = readReg s 0 ∧ t.pc.toNat + k.operandCount ≤ 255 :=
  ⟨withRegisters { machineAt 253 [0x45, 0] with sp := 0 } [(0, 0x11)], _, .ret, by decide, rfl, by decide, rfl, by decide,
    by decide, by decide⟩

/-- A PUSH over operand b of the next instruction. -/
theorem witness_pushed_operand : ∃ (s t : State) (k : Opcode) (j : Nat), s.mem.wf ∧ s.runState = .running ∧
    s.pc.toNat ≤ 253 ∧ exec (.push (regByte 0)) s = .next t ∧ t.nameAtPc = some k ∧ t.pc.toNat + k.operandCount ≤ 255 ∧
    j < k.operandCount ∧ t.pc.toNat + 1 + j = (spDown s.sp).toNat ∧ j = 1 :=
  ⟨{ machineAt 240 [0x45, 0, 0x82, 0, 9] with sp := 245 }, _, .ldi, 1, by decide, rfl, by decide, rfl, by decide, by decide,
    by decide, by decide, rfl⟩

/-- A CALL whose target is the cell it pushes to, and one whose target uses that cell as operand a. -/
theorem witness_called_stored_byte : ∃ (s t : State), s.mem.wf ∧ s.runState = .running ∧ s.pc.toNat ≤ 253 ∧
    exec (.call (regByte 0)) s = .next t ∧ t.pc.toNat = (spDown s.sp).toNat ∧
    ∀ k, t.config.opcodes.byteOf k ≠ s.pc + 2 :=
  ⟨withRegisters (machineAt 3 [0x50, 0]) [(0, 243)], _, by decide, rfl, by decide, rfl, by decide,
    opcode_bytes_exclude _ _ (by decide)⟩
theorem witness_called_stored_operand : ∃ (s t : State) (k : Opcode) (j : Nat), s.mem.wf ∧ s.runState = .running ∧
    s.pc.toNat ≤ 253 ∧ exec (.call (regByte 0)) s = .next t ∧ t.nameAtPc = some k ∧ t.pc.toNat + k.operandCount ≤ 255 ∧
    j < k.operandCount ∧ t.pc.toNat + 1 + j = (spDown s.sp).toNat ∧ j = 0 :=
  ⟨withRegisters { machineAt 3 [0x50, 0, 0x47] with sp := 7 } [(0, 5)], _, .prn, 0, by decide, rfl, by decide, rfl,
    by decide, by decide, by decide, by decide, rfl⟩

theorem witness_sp_at_255 : ∃ s : State, s.sp = 255 ∧ s.pc.toNat ≤ 253 := ⟨{ machineAt 253 [] with sp := 255 }, by decide⟩

theorem witness_decoded_bytes : ∃ (m : OpcodeMap) (bs more : List Byte) (i : Instr),
    decodeBytes m bs = some (i, more) := ⟨OpcodeMap.ls8, [0x82, 7, 255, 1], [1], .ldi 7 255, by decide⟩

theorem witness_whole_byte_match : ∃ (m : OpcodeMap) (op : Byte) (k : Opcode) (rest : List Byte), m.legal ∧
    m.byteOf k = op ∧ k.operandCount ≤ rest.length := ⟨OpcodeMap.ls8, 0x82, .ldi, [7, 255], by decide⟩
theorem witness_whole_byte_no_match : ∃ (m : OpcodeMap) (op : Byte), m.legal ∧ ∀ k, m.byteOf k ≠ op :=
  ⟨OpcodeMap.ls8, 0x00, by decide, opcode_bytes_exclude _ _ (by decide)⟩

theorem witness_unassigned_byte : ∃ s : State, s.runState = .running ∧
    s.opcodeAtPc = 0b11111111 := ⟨machineAt 3 [0xFF], by decide⟩

theorem witness_memory_write : ∃ (m : Memory) (addr : Nat), m.wf ∧ addr = 255 ∧ addr ≤ 255 := ⟨[(255, 1)], 255, by decide⟩
theorem witness_memory_outside : ∃ (m : Memory) (addr : Nat), m.wf ∧ addr = 256 ∧ addr > 255 := ⟨[(255, 1)], 256, by decide⟩

theorem witness_canonical_memories : ∃ m m' : Memory, m.wf ∧ m'.wf ∧ ∀ addr, m.cell addr = m'.cell addr :=
  ⟨[(0, 1), (255, 2)], [(0, 1), (255, 2)], by decide, by decide, fun _ => rfl⟩

theorem witness_image_fits : ∃ (image : List Byte) (s : State), s.mem.wf ∧ (∃ c, s = State.construct c) ∧
    image.length = 256 ∧ image.length ≤ 256 := by
  refine ⟨List.replicate 256 1, State.reset, by decide, ⟨Config.default, rfl⟩, ?_⟩
  rw [List.length_replicate]
  exact ⟨rfl, Nat.le_refl _⟩
theorem witness_image_too_long : ∃ image : List Byte, 256 < image.length := by
  refine ⟨List.replicate 257 1, ?_⟩
  rw [List.length_replicate]
  decide

theorem witness_line_comment : ∃ a : List Char, '#' ∉ a ∧ a ≠ [] := ⟨['1', ' '], by decide⟩
theorem witness_line_byte : ∃ ds : List Char, ds ≠ [] ∧ (∀ d ∈ ds, d = '0' ∨ d = '1') ∧ ds.length = 8 :=
  ⟨['1', '0', '0', '0', '0', '0', '1', '0'], by simp⟩
theorem witness_line_too_long : ∃ ds : List Char, (∀ d ∈ ds, d = '0' ∨ d = '1') ∧ ds.length = 9 :=
  ⟨['1', '0', '0', '0', '0', '0', '0', '0', '0'], by simp⟩
theorem witness_line_whitespace : ∃ a b : List Char, (∀ d ∈ a ++ b, isSpace d = true) ∧ a ≠ [] ∧ b ≠ [] :=
  ⟨[' ', '\t'], [' '], by simp [isSpace]⟩
/-- A line of digits with a space inside. -/
theorem witness_line_skipped : ∃ (l : List Char) (d : Char), '#' ∉ l ∧ (∀ c ∈ l.head?, isSpace c = false) ∧
    (∀ c ∈ l.getLast?, isSpace c = false) ∧ d ∈ l ∧ d ≠ '0' ∧ d ≠ '1' := ⟨['0', ' ', '1'], ' ', by simp [isSpace]⟩

end Sys2Proof.Tests
end

section
/-! SUPPORT. The meaning of the four stack instructions on a register operand, one equation each, the cells and the ends of
a push and a pop (R37, R38), and the proofs of the two stack address rules. -/

namespace Sys2Proof.Machine

/-! ### The stack instructions on a register operand -/

theorem exec_push (s : State) (ra : Reg) :
    exec (.push (regByte ra)) s = .next (seqNext .push 2 (pushByte s (readReg s ra))) :=
  congrArg Host.Outcome.next (withReg_regByte ..)

theorem exec_pop (s : State) (ra : Reg) :
    exec (.pop (regByte ra)) s = .next (seqNext .pop 2 (writeReg (popSp s) ra (poppedByte s))) :=
  congrArg Host.Outcome.next (withReg_regByte ..)

/-- A CALL whose return address fits a byte pushes it; the target is read before the push (R94). -/
theorem exec_call_inside {s : State} (ra : Reg) (h : s.pc.toNat + 2 ≤ 255) :
    exec (.call (regByte ra)) s = .next (setPc (pushByte s (s.pc + 2)) (readReg s ra)) := by
  have hret : BitVec.ofNat 8 (s.pc.toNat + 2) = s.pc + 2 := by simp [BitVec.ofNat_add]
  rw [← hret]
  exact congrArg Host.Outcome.next ((withReg_regByte ..).trans (if_neg (by omega)))

theorem exec_ret (s : State) : exec .ret s = .next (setPc (popSp s) (poppedByte s)) := rfl

/-! ### A push and a pop at the ends of memory, and the cells of a push -/

@[simp] theorem spDown_zero : spDown 0 = 255 := by decide

@[simp] theorem spUp_last : spUp 255 = 0 := by decide

theorem poppedByte_eq_cell (s : State) : poppedByte s = s.mem.cell s.sp.toNat := rfl

theorem pushByte_cell_self {s : State} (hm : s.mem.wf) (v : Byte) :
    (pushByte s v).mem.cell (spDown s.sp).toNat = v := Memory.cell_set_self hm _ v

theorem pushByte_cell_ne (s : State) (v : Byte) {addr : Nat} (h : addr ≠ (spDown s.sp).toNat) :
    (pushByte s v).mem.cell addr = s.mem.cell addr := Memory.cell_set_ne _ v h

/-! ### The address rules -/

/-- Settles O36: R37's rule from the two cell lemmas of a push; PUSH and CALL make exactly that push, and moving PC
afterwards changes neither SP nor memory. -/
theorem pushMovesTheStackPointerDownFirst : Obligations.PushMovesTheStackPointerDownFirst := by
  intro s v hm
  rw [← spDown_toNat]
  refine ⟨rfl, pushByte_cell_self hm v, fun _ => pushByte_cell_ne s v, fun h0 => ?_, fun ra _ => ?_, fun ra hpc => ?_⟩
  · have hsp : spDown s.sp = 255 := h0 ▸ spDown_zero
    have hcell := pushByte_cell_self hm v
    rw [hsp] at hcell
    exact ⟨hsp, hcell⟩
  · exact ⟨_, exec_push s ra, seqNext_sp .., seqNext_mem ..⟩
  · exact ⟨_, exec_call_inside ra (by omega), setPc_sp .., setPc_mem ..⟩

/-- Settles O37: the byte is read at the old SP; POP and RET make exactly that pop, and writing the register or PC
afterwards changes neither SP nor memory. -/
theorem popReadsBeforeTheStackPointerMovesUp : Obligations.PopReadsBeforeTheStackPointerMovesUp := by
  intro s
  refine ⟨poppedByte_eq_cell s, spUp_toNat s.sp, fun h255 => ?_, fun ra _ => ?_, ?_⟩
  · exact ⟨by rw [poppedByte_eq_cell, h255]; rfl, by rw [popSp_sp, h255, spUp_last]⟩
  · exact ⟨_, exec_pop s ra, (seqNext_readReg ..).trans (readReg_writeReg_self ..), seqNext_sp .., seqNext_mem ..⟩
  · exact ⟨_, exec_ret s, rfl, rfl, rfl⟩

end Sys2Proof.Machine
end

section
/-! SUPPORT. The decoder as a whole (R55, R58, R64): which operand strings are enough, what a byte that is no opcode decodes
to, the round trip from an encoding, and the step on such a byte; and the proofs of the two statements about the opcode byte. -/

namespace Sys2Proof.Machine

/-! ### What decoding answers -/

/-- A byte that is no opcode's is refused, whatever follows it. -/
theorem decode_of_no_opcode {m : OpcodeMap} {op : Byte} (h : opcodeOf m op = none) (rest : List Byte) :
    decode m op rest = .error .unknownInstruction := by simp [decode, h]

/-- As many bytes as the opcode uses are enough to decode its operands. -/
theorem decodeOperands_of_length_le {k : Opcode} {bs : List Byte} (h : k.operandCount ≤ bs.length) :
    ∃ i more, decodeOperands k bs = .ok (i, more) ∧ i.opcode = k := by
  cases hd : decodeOperands k bs with
  | ok p => exact ⟨p.1, p.2, rfl, (decodeOperands_ok hd).1⟩
  | error r => rcases decodeOperands_error hd with ⟨-, _, _⟩ | ⟨-, _, _⟩ <;> omega

/-- Under a legal map an encoding, followed by anything, decodes to its instruction and what follows. -/
theorem decodeBytes_encode_append {m : OpcodeMap} (h : m.legal) (i : Instr) (more : List Byte) :
    decodeBytes m (encode m i ++ more) = some (i, more) := by
  have hd : decode m (m.byteOf i.opcode) (i.operands ++ more) = .ok (i, more) :=
    (decode_of_opcode (opcodeOf_byteOf h i.opcode) _).trans (decodeOperands_operands i more)
  simp [encode, decodeBytes, hd]

/-- A legal map leaves 0xFF unassigned. -/
theorem opcodeOf_unassigned {m : OpcodeMap} (h : m.legal) : opcodeOf m 0xFF = none :=
  opcodeOf_none.2 fun k hk => (List.nodup_cons.1 h).1 (hk ▸ List.mem_map_of_mem (Opcode.mem_all k))

/-- A running machine whose byte at PC is no opcode's raises UnknownInstruction with that byte, and changes nothing else. -/
theorem step_of_no_opcode {s : State} (hr : s.runState = .running) (h : s.nameAtPc = none) :
    step s = .next (faultedAs s .unknownInstruction s.opcodeAtPc 0) :=
  step_of_rejected hr (decode_of_no_opcode h _)

/-! ### The statements about the opcode byte -/

/-- Settles O46: a byte of the map is decoded by its operands, which are there; any other byte has no opcode. -/
theorem decoderMatchesTheWholeByte : Obligations.DecoderMatchesTheWholeByte := by
  intro m op hm
  constructor
  · rintro k rfl rest hlen
    rw [decode_of_opcode (opcodeOf_byteOf hm k)]
    exact decodeOperands_of_length_le hlen
  · exact fun hne => decode_of_no_opcode (opcodeOf_none.2 hne)

/-- Settles O48: the source's bytes are the encodings of the three instructions under every map, and no legal map assigns
0xFF. -/
theorem theSourcesOwnBytesDecode : Obligations.TheSourcesOwnBytesDecode := by
  refine ⟨fun m hm => ⟨?_, ?_, ?_⟩, fun s hr hop => ?_⟩
  · exact decodeBytes_encode_append hm (.ldi 0 8) _
  · exact decodeBytes_encode_append hm (.prn 0) _
  · exact decodeBytes_encode_append hm .hlt []
  · have hnone : s.nameAtPc = none := by
      rw [State.nameAtPc, hop]
      exact opcodeOf_unassigned s.config.legal
    rw [← hop]
    exact step_of_no_opcode hr hnone

end Sys2Proof.Machine
end

section
/-! SUPPORT. The fetch and operand rules of a step (R64, R65, R66): what a fetch with too few bytes answers, that an
instruction's operands are the bytes after its opcode, what the first bad register operand does; and the proofs of the three
statements about them. -/

namespace Sys2Proof.Machine

/-! ### Fetching operands -/

/-- Too few bytes: the operand reported missing is the first one there is no byte for. -/
theorem decodeOperands_of_length_lt {k : Opcode} {bs : List Byte} (h : bs.length < k.operandCount) :
    decodeOperands k bs = .error (if bs.length = 0 then .missingOperandA else .missingOperandB) := by
  cases hd : decodeOperands k bs with
  | ok p =>
    obtain ⟨rfl, hb⟩ := decodeOperands_ok hd
    rw [hb, List.length_append, operands_length] at h
    omega
  | error r => rcases decodeOperands_error hd with ⟨rfl, hl, -⟩ | ⟨rfl, hl, -⟩ <;> simp [hl]

/-- An opcode whose operands reach past memory is refused at the first operand whose address is above 255. -/
theorem fetchDecode_of_operands_outside {s : State} {k : Opcode} (hk : s.nameAtPc = some k)
    (h : s.pc.toNat + k.operandCount > 255) :
    fetchDecode s = .error (if s.pc.toNat + 1 > 255 then .missingOperandA else .missingOperandB) := by
  have hlen := readFrom_length s.mem (s.pc.toNat + 1) k.operandCount
  have hempty : (readFrom s.mem (s.pc.toNat + 1) k.operandCount).length = 0 ↔ s.pc.toNat + 1 > 255 := by omega
  rw [fetchDecode_of_opcode hk, decodeOperands_of_length_lt (by omega)]
  simp only [hempty]

/-- An opcode whose operands lie in memory is fetched as an instruction of that name. -/
theorem fetchDecode_of_operands_inside {s : State} {k : Opcode} (hk : s.nameAtPc = some k)
    (h : s.pc.toNat + k.operandCount ≤ 255) : ∃ i rest, fetchDecode s = .ok (i, rest) ∧ i.opcode = k := by
  have hlen := readFrom_length s.mem (s.pc.toNat + 1) k.operandCount
  rw [fetchDecode_of_opcode hk]
  exact decodeOperands_of_length_le (by omega)

/-- Operand `j` of a fetched instruction (operand a is number 0) is the byte at PC + 1 + `j`. -/
theorem memRead_operand_of_fetched {s : State} {i : Instr} {rest : List Byte} (h : fetchDecode s = .ok (i, rest))
    {j : Nat} (hj : j < i.operands.length) : memRead s.mem (s.pc.toNat + 1 + j) = some i.operands[j] := by
  obtain ⟨-, -, hpc, hbytes⟩ := fetchDecode_ok h
  have hcount := operands_length i
  have hread : i.operands[j] = s.mem.cell (s.pc.toNat + 1 + j) := by
    have hall : j < (i.operands ++ rest).length := by rw [List.length_append]; omega
    rw [← List.getElem_append_left hj (h' := hall), List.getElem_of_eq hbytes hall, readFrom_getElem]
  rw [hread, memRead_of_le _ (by omega)]

/-! ### Register operands -/

/-- The first operand byte that names no register. -/
abbrev firstBad (bs : List Byte) : Option Byte := bs.find? fun b => decide (7 < b.toNat)

/-- Checking operand `a` with the operands `bs` still to be checked: if `c` is the first bad byte of them all, either `a` is
`c` and is refused here, or the check goes on and it is left to the rest to refuse `c`. -/
theorem withReg_of_firstBad {k : Opcode} {a c : Byte} {bs : List Byte} {s : State} {go : Reg → State}
    (h : firstBad (a :: bs) = some c)
    (hgo : ∀ r, firstBad bs = some c → go r = raise .badRegister (opcodeByte s k) c.toNat s) :
    withReg k a s go = raise .badRegister (opcodeByte s k) c.toNat s := by
  rcases List.find?_cons_eq_some.1 h with ⟨hbad, rfl⟩ | ⟨hgood, hrest⟩
  · exact withReg_bad k (by simpa using hbad) s go
  · obtain ⟨r, -, rfl⟩ := regOf_eq_some (b := a) (by simpa using hgood)
    rw [withReg_regByte]
    exact hgo r hrest

theorem withReg_of_firstBad_one {k : Opcode} {a c : Byte} (h : firstBad [a] = some c) (s : State) (go : Reg → State) :
    withReg k a s go = raise .badRegister (opcodeByte s k) c.toNat s :=
  withReg_of_firstBad h fun _ hnil => by cases hnil

theorem withRegs_of_firstBad {k : Opcode} {a b c : Byte} (h : firstBad [a, b] = some c) (s : State)
    (go : Reg → Reg → State) : withRegs k a b s go = raise .badRegister (opcodeByte s k) c.toNat s :=
  withReg_of_firstBad h fun _ hb => withReg_of_firstBad_one hb s _

/-- An instruction with a bad register operand raises BadRegister for the first one, and changes nothing else. -/
theorem exec_of_firstBad {i : Instr} {c : Byte} (h : firstBad i.registerOperands = some c) (s : State) :
    exec i s = .next (raise .badRegister (opcodeByte s i.opcode) c.toNat s) := by
  cases i with
  | ret | hlt => cases h
  | add a b | mul a b | cmp a b => exact congrArg Host.Outcome.next (withRegs_of_firstBad h s _)
  | ldi a b | prn a | push a | pop a | jmp a | jeq a | jne a | call a =>
    exact congrArg Host.Outcome.next (withReg_of_firstBad_one h s _)

theorem exec_ldi (s : State) (ra : Reg) (b : Byte) :
    exec (.ldi (regByte ra) b) s = .next (seqNext .ldi 3 (writeReg s ra b)) :=
  congrArg Host.Outcome.next (withReg_regByte ..)

/-! ### The statements about fetching and operands -/

/-- Settles O14: a byte that is none of the map's decodes to no name, and the step refuses it. -/
theorem unknownOpcodeFaults : Obligations.UnknownOpcodeFaults :=
  fun _ hr hne => step_of_no_opcode hr (opcodeOf_none.2 hne)

/-- Settles O15: outside memory the fetch is refused at the first operand without a byte; inside, the instruction fetched has
the bytes after the opcode as its operands. -/
theorem operandFetchFollowsItsRule : Obligations.OperandFetchFollowsItsRule := by
  intro s k hr hk
  refine ⟨fun hcount ha => ?_, fun hcount ha hb => ?_, fun hin => ?_⟩
  · have hf := fetchDecode_of_operands_outside hk (by omega)
    rw [if_pos ha] at hf
    exact step_of_rejected hr hf
  · have hf := fetchDecode_of_operands_outside hk (by omega)
    rw [if_neg (by omega)] at hf
    exact step_of_rejected hr hf
  · obtain ⟨i, rest, hf, hi⟩ := fetchDecode_of_operands_inside hk hin
    exact ⟨i, hi, step_of_fetched hr hf, fun j hj => memRead_operand_of_fetched hf hj⟩

/-- Settles O16: the first bad register operand stops the instruction before any effect; LDI has written its immediate before
SeqNext, which can fault at 253 alone since the operand at PC + 2 exists. -/
theorem badRegisterOperandFaults : Obligations.BadRegisterOperandFaults := by
  refine ⟨fun s i rest c hr hf hbad => ?_, fun s ra b rest hr hf => ?_⟩
  · obtain ⟨-, hop, -, -⟩ := fetchDecode_ok hf
    rw [step_of_fetched hr hf, exec_of_firstBad hbad, hop]
    rfl
  · obtain ⟨-, -, hpc, -⟩ := fetchDecode_ok hf
    have hfits : s.pc.toNat + 2 ≤ 255 := hpc
    refine ⟨_, (step_of_fetched hr hf).trans (exec_ldi s ra b), by simp, ?_⟩
    rcases seqNext_cases .ldi 3 (writeReg s ra b) with ⟨-, hnext⟩ | ⟨hout, -⟩
    · exact .inl (by simpa [hnext] using hr)
    · rw [writeReg_pc] at hout
      exact .inr (by omega)

end Sys2Proof.Machine
end

section
/-! SUPPORT. The ALU function alone (41_alu.md): its sums, products and complements as numbers, the comparison's three flags, and
the proofs of the four statements about them. -/

namespace Sys2Proof.Machine

/-- The byte of a number reduced modulo 256 is that remainder (R74, R75). -/
theorem toNat_ofNat_mod256 (n : Nat) : (BitVec.ofNat 8 (n % 256)).toNat = n % 256 := by
  rw [BitVec.toNat_ofNat]
  exact Nat.mod_mod n 256

/-! ### The flags of a comparison -/

@[simp] theorem compareFlags_e_iff (x y : Byte) : (compareFlags x y).e = true ↔ x.toNat = y.toNat := decide_eq_true_iff

@[simp] theorem compareFlags_g_iff (x y : Byte) : (compareFlags x y).g = true ↔ x.toNat > y.toNat := decide_eq_true_iff

@[simp] theorem compareFlags_l_iff (x y : Byte) : (compareFlags x y).l = true ↔ x.toNat < y.toNat := decide_eq_true_iff

/-- The order is total and its three cases exclude each other, so exactly one flag is 1 (R76). -/
theorem compareFlags_exactly_one (x y : Byte) :
    bit (compareFlags x y).e + bit (compareFlags x y).g + bit (compareFlags x y).l = 1 := by
  simp only [bit, compareFlags_e_iff, compareFlags_g_iff, compareFlags_l_iff]
  rcases Nat.lt_trichotomy x.toNat y.toNat with hlt | heq | hgt
  · rw [if_neg (by omega), if_neg (by omega), if_pos hlt]
  · rw [if_pos heq, if_neg (by omega), if_neg (by omega)]
  · rw [if_neg (by omega), if_pos hgt, if_neg (by omega)]

/-! ### The complement -/

/-- Subtracting a byte from 255 complements its bits (R80). -/
theorem ofNat_255_sub_eq_not (y : Byte) : BitVec.ofNat 8 (255 - y.toNat) = ~~~y := by
  apply BitVec.eq_of_toNat_eq
  rw [BitVec.toNat_ofNat, BitVec.toNat_not]
  omega

theorem alu_not_eq (x y : Byte) : alu .not x y = .result (~~~y) := congrArg AluResult.result (ofNat_255_sub_eq_not y)

/-! ### The statements about the ALU -/

/-- Settles O40: each result is the byte of the exact sum or product reduced modulo 256. -/
theorem aluAddsAndMultipliesModulo256 : Obligations.AluAddsAndMultipliesModulo256 :=
  fun _ _ => ⟨⟨_, rfl, toNat_ofNat_mod256 _⟩, ⟨_, rfl, toNat_ofNat_mod256 _⟩⟩

/-- Settles O41: the answer is the comparison's flags, one for each case of the unsigned order. -/
theorem aluComparesUnsigned : Obligations.AluComparesUnsigned :=
  fun x y => ⟨compareFlags x y, rfl, compareFlags_e_iff x y, compareFlags_g_iff x y, compareFlags_l_iff x y,
    compareFlags_exactly_one x y⟩

/-- Settles O42: each result is the word operation, whose bits are the operation on the operands' bits. -/
theorem aluLogicIsBitByBit : Obligations.AluLogicIsBitByBit := by
  refine fun x y => ⟨x &&& y, x ||| y, x ^^^ y, rfl, rfl, rfl, fun i _ => ⟨?_, ?_, ?_⟩⟩
  · rw [BitVec.getLsbD_and, Bool.and_eq_true]
  · rw [BitVec.getLsbD_or, Bool.or_eq_true]
  · rw [BitVec.getLsbD_xor, bne_iff_ne]

/-- Settles O43: NOT answers the complement of its second operand, which is 255 less it, and NOP answers 0. -/
theorem aluNotIsTheComplementAndNopIsZero : Obligations.AluNotIsTheComplementAndNopIsZero := by
  refine fun x y => ⟨⟨~~~y, alu_not_eq x y, ?_, fun i hi => ?_⟩, rfl⟩
  · rw [BitVec.toNat_not]
  · rw [BitVec.getLsbD_not, decide_eq_true hi, Bool.true_and]

end Sys2Proof.Machine
end

section
/-! SUPPORT. The host's exit status (70_reset_and_hazards.md, R125): its value at each way a run ends and for a failed load, and
the proof of the statement about it. -/

namespace Sys2Proof.Machine

/-- All that is known of `FAULT_EXIT_STATUS`: it is a successor, so it is not 0 whatever the free value behind it. -/
theorem faultExitStatus_ne_zero : Config.faultExitStatus ≠ 0 := Nat.succ_ne_zero Config.openExitStatus

theorem exitStatus_of_cleanEnd {s : State} (h : s.cleanEnd) : exitStatus s = some 0 := by
  rw [exitStatus, h]

theorem exitStatus_of_failedEnd {s : State} (h : s.failedEnd) : exitStatus s = some Config.faultExitStatus := by
  rw [exitStatus, h]

@[simp] theorem loadExitStatus_failed (kind : FaultKind) (addr : Nat) :
    loadExitStatus (.failed kind addr) = some Config.faultExitStatus := rfl

/-- Settles O57: a clean end answers 0; a faulted end and a failed load both answer `FAULT_EXIT_STATUS`, which is not 0. -/
theorem exitStatusTellsSuccessFromFailure : Obligations.ExitStatusTellsSuccessFromFailure :=
  ⟨fun _ => exitStatus_of_cleanEnd,
    fun _ hfailed => ⟨_, exitStatus_of_failedEnd hfailed, faultExitStatus_ne_zero⟩,
    fun kind addr => ⟨_, loadExitStatus_failed kind addr, faultExitStatus_ne_zero⟩⟩

end Sys2Proof.Machine
end

section
/-! SUPPORT. Decoding and encoding as inverses (R52, R55, R59), the number of bytes that are no opcode (R56), and the proofs of
the four statements about them. -/

namespace Sys2Proof

/-! ### From decoded bytes back to their encoding -/

/-- Decoded bytes are the opcode byte of what they decode to, then its operands, then the bytes left over. -/
theorem decode_ok {m : OpcodeMap} {op : Byte} {rest more : List Byte} {i : Instr} (h : decode m op rest = .ok (i, more)) :
    op = m.byteOf i.opcode ∧ rest = i.operands ++ more := by
  cases hk : opcodeOf m op with
  | none => simp [decode, hk] at h
  | some k =>
    rw [decode_of_opcode hk] at h
    obtain ⟨rfl, hbytes⟩ := decodeOperands_ok h
    exact ⟨(opcodeOf_some hk).symm, hbytes⟩

theorem decodeBytes_cons_eq_some {m : OpcodeMap} {op : Byte} {rest : List Byte} {r : Instr × List Byte} :
    decodeBytes m (op :: rest) = some r ↔ decode m op rest = .ok r := by
  cases hd : decode m op rest <;> simp [decodeBytes, hd]

/-! ### Counting the bytes that are opcodes -/

/-- The opcode bytes as numbers, in the order of the opcode table. -/
def OpcodeMap.codes (m : OpcodeMap) : List Nat := (Opcode.all.map m.byteOf).map BitVec.toNat

theorem OpcodeMap.codes_nodup {m : OpcodeMap} (h : m.legal) : m.codes.Nodup :=
  (List.nodup_cons.1 h).2.map BitVec.toNat_injective

/-- The numbers below 256 whose byte decodes are exactly the opcode bytes. -/
theorem mem_codes_iff {m : OpcodeMap} (h : m.legal) (n : Nat) :
    n ∈ m.codes ↔ n < 256 ∧ (opcodeOf m (BitVec.ofNat 8 n)).isSome = true := by
  simp only [OpcodeMap.codes, List.map_map, List.mem_map, Function.comp_apply]
  constructor
  · rintro ⟨k, -, rfl⟩
    rw [BitVec.ofNat_toNat, BitVec.setWidth_eq, opcodeOf_byteOf h]
    exact ⟨(m.byteOf k).isLt, rfl⟩
  · rintro ⟨hn, hsome⟩
    obtain ⟨k, hk⟩ := Option.isSome_iff_exists.1 hsome
    refine ⟨k, Opcode.mem_all k, ?_⟩
    rw [opcodeOf_some hk, BitVec.toNat_ofNat, Nat.mod_eq_of_lt hn]

/-- Thirteen of the 256 bytes decode: listed by value they are the opcode bytes in another order. -/
theorem countP_isSome_opcodeOf {m : OpcodeMap} (h : m.legal) :
    (List.range 256).countP (fun n => (opcodeOf m (BitVec.ofNat 8 n)).isSome) = 13 := by
  rw [List.countP_eq_length_filter]
  have hperm : ((List.range 256).filter fun n => (opcodeOf m (BitVec.ofNat 8 n)).isSome).Perm m.codes :=
    (List.perm_ext_iff_of_nodup (List.nodup_range.filter _) (OpcodeMap.codes_nodup h)).2 fun n => by
      rw [List.mem_filter, List.mem_range, mem_codes_iff h]
  exact hperm.length_eq

end Sys2Proof

namespace Sys2Proof.Machine

/-! ### The statements about the encoding -/

/-- Settles O44: the opcode byte names the instruction, and its operand bytes are taken in the order they are written in. -/
theorem decodeOfEncodeIsTheInstruction : Obligations.DecodeOfEncodeIsTheInstruction :=
  fun _ i more hm => decodeBytes_encode_append hm i more

/-- Settles O45: an opcode byte that decodes is the one the map gives its instruction, and the operands are the bytes read. -/
theorem decodedBytesAreTheEncoding : Obligations.DecodedBytesAreTheEncoding := by
  intro m bs more i h
  cases bs with
  | nil => cases h
  | cons op rest =>
    obtain ⟨rfl, rfl⟩ := decode_ok (decodeBytes_cons_eq_some.1 h)
    rfl

/-- Settles O47: of the 256 bytes the thirteen opcode bytes decode, so the other 243 do not. -/
theorem exactlyTwoHundredFortyThreeBytesAreIllegal : Obligations.ExactlyTwoHundredFortyThreeBytesAreIllegal := by
  intro m hm
  have hsplit := List.length_eq_countP_add_countP (l := List.range 256)
    fun n => (opcodeOf m (BitVec.ofNat 8 n)).isSome
  rw [countP_isSome_opcodeOf hm, List.length_range] at hsplit
  simp only [decide_not, Bool.decide_eq_true, Option.not_isSome] at hsplit
  omega

/-- Settles O49: seven of the words hold an encoding under the default map, and 0xFF is no opcode's byte in it. -/
theorem writtenWordsDecode : Obligations.WrittenWordsDecode := by
  unfold Obligations.WrittenWordsDecode
  decide

end Sys2Proof.Machine
end

section
/-! SUPPORT. Memory as the map from addresses to bytes that its canonical form represents (R30, R33, R34), the load of an image
(R119, R121), and the proofs of the five statements about them. -/

namespace Sys2Proof.Machine

/-! ### The canonical form -/

/-- A canonical memory lists exactly the cells whose byte is not that of an unlisted one. -/
theorem Memory.mem_iff {m : Memory} (hm : m.wf) {a : Nat} {v : Byte} :
    (a, v) ∈ m ↔ m.cell a = v ∧ v ≠ unlistedByte := by
  induction m with
  | nil =>
    simp only [List.not_mem_nil, Memory.cell_nil, false_iff, not_and, not_not]
    exact Eq.symm
  | cons c rest ih =>
    obtain ⟨b, w⟩ := c
    have hw : w ≠ unlistedByte := (hm.2 _ List.mem_cons_self).2
    have hrest := ih (Memory.wf_tail hm)
    rw [List.mem_cons, Prod.mk.injEq, Memory.cell]
    by_cases hab : b = a
    · have hnot : (a, v) ∉ rest := fun hv => Nat.lt_irrefl a (hab ▸ Memory.below_head hm _ hv)
      rw [if_pos hab]
      exact ⟨fun h => h.elim (fun e => ⟨e.2.symm, e.2 ▸ hw⟩) (absurd · hnot), fun h => .inl ⟨hab.symm, h.1.symm⟩⟩
    · rw [if_neg hab, ← hrest]
      exact or_iff_right fun e => hab e.1.symm

theorem Memory.wf_nodup {m : Memory} (hm : m.wf) : m.Nodup :=
  hm.1.imp fun hlt => ne_of_apply_ne Prod.fst hlt.ne

/-! ### Loading an image -/

/-- An image that fits is stored, and nothing else is touched. -/
theorem loadFrom_of_fits (image : List Byte) {k : Nat} (h : k + image.length ≤ 256) (s : State) :
    loadFrom image k s = .ready { s with mem := storeFrom s.mem k image } := by
  induction image generalizing k s with
  | nil => rfl
  | cons b rest ih =>
    rw [List.length_cons] at h
    have hwrite := memWrite_of_le s.mem b (addr := k) (by omega)
    simp only [loadFrom, storeFrom, hwrite]
    exact ih (by omega) _

/-- An image that does not fit fails at the first address that does not exist. -/
theorem loadFrom_of_too_long (image : List Byte) {k : Nat} (hk : k ≤ 256) (h : 256 < k + image.length) (s : State) :
    loadFrom image k s = .failed .outOfBounds 256 := by
  induction image generalizing k s with
  | nil => simp at h; omega
  | cons b rest ih =>
    rw [List.length_cons] at h
    rcases Nat.lt_or_eq_of_le hk with hlt | rfl
    · simp only [loadFrom, memWrite_of_le s.mem b (addr := k) (by omega)]
      exact ih (by omega) (by omega) _
    · rfl

/-- Bytes stored from an address on leave the cells before and after them alone. -/
theorem storeFrom_cell_outside (m : Memory) (image : List Byte) {k addr : Nat} (h : addr < k ∨ k + image.length ≤ addr) :
    (storeFrom m k image).cell addr = m.cell addr := by
  induction image generalizing m k with
  | nil => rfl
  | cons b rest ih =>
    rw [List.length_cons] at h
    by_cases hk : k ≤ 255
    · simp only [storeFrom, memWrite_of_le m b hk]
      rw [ih _ (by omega), Memory.cell_set_ne _ _ (by omega)]
    · have hwrite : memWrite m k b = none := if_pos (Nat.lt_of_not_le hk)
      simp only [storeFrom, hwrite]

/-- Byte `j` of the bytes stored from an address on is in the cell `j` further. -/
theorem storeFrom_cell_inside {m : Memory} (hm : m.wf) {image : List Byte} {k j : Nat} (hfits : k + image.length ≤ 256)
    (hj : j < image.length) : (storeFrom m k image).cell (k + j) = image[j] := by
  induction image generalizing m k j with
  | nil => simp at hj
  | cons b rest ih =>
    rw [List.length_cons] at hfits hj
    simp only [storeFrom, memWrite_of_le m b (addr := k) (by omega)]
    cases j with
    | zero => exact (storeFrom_cell_outside _ rest (.inl (by omega))).trans (Memory.cell_set_self hm k b)
    | succ j =>
      have hset : (m.set k b).wf := Memory.set_wf hm (by simp [memSize]; omega) b
      have hcell := ih hset (k := k + 1) (j := j) (by omega) (by omega)
      rw [Nat.add_right_comm] at hcell
      exact hcell

/-! ### The statements about memory and loading -/

/-- Settles O50: MemRead's range check. -/
theorem memReadStaysInsideMemory : Obligations.MemReadStaysInsideMemory :=
  fun m _ => ⟨memRead_of_le m, fun h => if_pos h⟩

/-- Settles O51: inside memory MemWrite is `Memory.set`, and an SP value is inside memory. -/
theorem memWriteSetsOneCell : Obligations.MemWriteSetsOneCell := by
  intro m addr v hm
  refine ⟨fun h => ⟨_, memWrite_of_le m v h, ?_, Memory.cell_set_self hm addr v, fun _ => Memory.cell_set_ne m v⟩,
    fun h => if_pos h, fun sp => ?_⟩
  · exact Memory.set_wf hm (Nat.lt_succ_of_le h) v
  · rw [memWrite_of_le m v (Nat.le_of_lt_succ sp.isLt)]
    exact Option.some_ne_none _

/-- Settles O52: a canonical memory's cells say which pairs it lists, and its rising addresses in which order. -/
theorem canonicalMemoriesThatReadAlikeAreEqual : Obligations.CanonicalMemoriesThatReadAlikeAreEqual := by
  intro m m' hm hm' hcells
  have hsame : ∀ c : Host.Cell, c ∈ m ↔ c ∈ m' := fun c => by
    rw [Memory.mem_iff hm, Memory.mem_iff hm', hcells]
  exact ((List.perm_ext_iff_of_nodup (Memory.wf_nodup hm) (Memory.wf_nodup hm')).2 hsame).eq_of_pairwise
    (fun _ _ _ _ hab hba => absurd hab (Nat.lt_asymm hba)) hm.1 hm'.1

/-- Settles O54: the load stores the image from address 0 on, and after construction the other cells are unlisted. -/
theorem loadWritesTheImageFromZero : Obligations.LoadWritesTheImageFromZero := by
  intro image s hm hlen
  have hfits : 0 + image.length ≤ 256 := by omega
  have hpast : ∀ k, image.length ≤ k → (storeFrom s.mem 0 image).cell k = s.mem.cell k :=
    fun k hk => storeFrom_cell_outside _ _ (.inr (by omega))
  refine ⟨_, loadFrom_of_fits image hfits s, fun k hk => ?_, hpast, ?_, rfl, storeFrom_wf hm 0 image⟩
  · have hcell := storeFrom_cell_inside hm hfits hk
    rwa [Nat.zero_add] at hcell
  · rintro ⟨c, rfl⟩
    exact hpast

/-- Settles O55: the write of byte 256 is the first that MemWrite refuses. -/
theorem aLongImageFailsToLoad : Obligations.ALongImageFailsToLoad :=
  fun image s hlen => loadFrom_of_too_long image (Nat.zero_le _) (by omega) s

end Sys2Proof.Machine
end

section
/-! SUPPORT. The state after reset (R116), the invariant there, the status port's bits and codes (R27, R97), and the proofs of the
three statements about them. -/

namespace Sys2Proof.Machine

@[simp] theorem construct_readReg (c : Config) (r : Reg) : readReg (State.construct c) r = 0 := by
  simp [readReg, State.construct]

/-- The flags' byte is below 8: the five bits above E, G and L are 0 (R27). -/
theorem flagsByte_toNat_lt (f : Flags) : (flagsByte f).toNat < 2 ^ 3 := by
  obtain ⟨e, g, l⟩ := f
  cases e <;> cases g <;> cases l <;> decide

theorem flagsByte_low_bits (f : Flags) :
    (flagsByte f).getLsbD 0 = f.e ∧ (flagsByte f).getLsbD 1 = f.g ∧ (flagsByte f).getLsbD 2 = f.l := by
  obtain ⟨e, g, l⟩ := f
  cases e <;> cases g <;> cases l <;> decide

theorem flagsByte_high_bits (f : Flags) {i : Nat} (h : 3 ≤ i) : (flagsByte f).getLsbD i = false :=
  Nat.testBit_lt_two_pow (Nat.lt_of_lt_of_le (flagsByte_toNat_lt f) (Nat.pow_le_pow_right (by decide) h))

/-- No fault kind has the code 0, which is that of an empty record (R97). -/
theorem faultKind_code_ne_zero (kind : FaultKind) : kind.code ≠ 0 := by cases kind <;> decide

theorem faultCode_eq_zero_iff (r : Option FaultRecord) : faultCode r = 0 ↔ r = none := by
  cases r with
  | none => exact iff_of_true rfl rfl
  | some r => exact iff_of_false (faultKind_code_ne_zero r.kind) (Option.some_ne_none r)

/-! ### The statements about reset and the status port -/

/-- Settles O53: `State.construct` writes each value down, and SP's is one of the two of `SP_INIT`. -/
theorem resetStateIsAsStated : Obligations.ResetStateIsAsStated := by
  refine ⟨fun c => ⟨construct_readReg c, fun _ => rfl, rfl, rfl, rfl, rfl, rfl, rfl⟩, fun c => ?_, ⟨_, rfl⟩, rfl⟩
  change c.spInit.value = 244 ∨ c.spInit.value = 255
  cases c.spInit with
  | sp244 => exact .inl rfl
  | sp255 => exact .inr rfl

/-- Settles O32: memory is empty, the flags are clear, and the machine is running with no record. -/
theorem invariantHoldsAfterReset : Obligations.InvariantHoldsAfterReset := fun c =>
  { memory := construct_mem_wf c
    flags := by change bit false + bit false + bit false ≤ 1; decide
    empty := fun _ => rfl
    written := fun h => by cases h }

/-- Settles O58: the flags' byte is `E + 2 G + 4 L`, and the code is the kind's row of R97's table. -/
theorem statusPortLayout : Obligations.StatusPortLayout := by
  intro s
  obtain ⟨he, hg, hl⟩ := flagsByte_low_bits s.flags
  refine ⟨he, hg, hl, fun _ => flagsByte_high_bits s.flags, faultCode_eq_zero_iff s.faultRecord, fun r hr => ?_⟩
  have hcode : (statusPort s).code = r.kind.code := congrArg faultCode hr
  rw [hcode]
  cases r.kind <;> rfl

end Sys2Proof.Machine
end

section
/-! SUPPORT. Reading a line of program text (R120): what a comment and outer whitespace change, the value of a string of binary
digits, and the proof of the statement about lines. -/

namespace Sys2Proof.Machine

/-! ### Comments -/

/-- Text before a line's first `#` is kept. -/
theorem dropComment_append {a : List Char} (h : '#' ∉ a) (l : List Char) : dropComment (a ++ l) = a ++ dropComment l :=
  List.takeWhile_append_of_pos fun _ hc => bne_iff_ne.2 fun e => h (e ▸ hc)

theorem dropComment_eq_self {a : List Char} (h : '#' ∉ a) : dropComment a = a := by
  simpa [dropComment] using dropComment_append h []

/-- What is written behind a line belongs to its comment, or is read on when the line has none. -/
theorem dropComment_append_cases (l b : List Char) :
    dropComment (l ++ b) = dropComment l ∨ dropComment (l ++ b) = dropComment l ++ dropComment b := by
  unfold dropComment
  rw [List.takeWhile_append]
  split
  · next hlen =>
    rw [(List.takeWhile_prefix _).eq_of_length hlen]
    exact .inr rfl
  · exact .inl rfl

/-! ### Outer whitespace -/

/-- Whitespace: every character counts for nothing at a line's ends. -/
abbrev Blank (a : List Char) : Prop := ∀ c ∈ a, isSpace c = true

theorem Blank.no_comment {a : List Char} (h : Blank a) : '#' ∉ a := fun hmem => absurd (h _ hmem) (by decide)

/-- `trim` drops from the front, then from the back. -/
theorem trim_eq (l : List Char) : trim l = (l.dropWhile isSpace).rdropWhile isSpace := rfl

theorem trim_blank_append {a : List Char} (ha : Blank a) (l : List Char) : trim (a ++ l) = trim l := by
  rw [trim_eq, List.dropWhile_append_of_pos ha, trim_eq]

theorem rdropWhile_append_blank (l : List Char) {b : List Char} (hb : Blank b) :
    (l ++ b).rdropWhile isSpace = l.rdropWhile isSpace := by
  rw [List.rdropWhile, List.reverse_append, List.dropWhile_append_of_pos fun c hc => hb c (List.mem_reverse.1 hc),
    List.rdropWhile]

theorem trim_append_blank (l : List Char) {b : List Char} (hb : Blank b) : trim (l ++ b) = trim l := by
  rw [trim_eq, List.dropWhile_append, trim_eq]
  split
  · next hempty => rw [List.isEmpty_iff.1 hempty, List.dropWhile_eq_nil_iff.2 hb]
  · exact rdropWhile_append_blank _ hb

/-- A line whose first and last characters are no whitespace is trimmed already. -/
theorem trim_eq_self {l : List Char} (hhead : ∀ c ∈ l.head?, isSpace c = false)
    (hlast : ∀ c ∈ l.getLast?, isSpace c = false) : trim l = l := by
  have hfront : l.dropWhile isSpace = l := by
    cases l with
    | nil => rfl
    | cons c rest => exact List.dropWhile_cons_of_neg (Bool.eq_false_iff.1 (hhead c rfl))
  rw [trim_eq, hfront, List.rdropWhile_eq_self_iff]
  exact fun hne => Bool.eq_false_iff.1 (hlast _ (List.getLast_mem_getLast? hne))

/-- Whitespace at both ends of a line, inside or outside its comment, does not change what is read. -/
theorem trim_dropComment_blank {a b : List Char} (ha : Blank a) (hb : Blank b) (l : List Char) :
    trim (dropComment (a ++ l ++ b)) = trim (dropComment l) := by
  rw [List.append_assoc, dropComment_append ha.no_comment, trim_blank_append ha]
  rcases dropComment_append_cases l b with e | e
  · rw [e]
  · rw [e, dropComment_eq_self hb.no_comment, trim_append_blank _ hb]

/-! ### Reading what is left -/

/-- A line is read from its trimmed text before the comment. -/
theorem parseLine_congr {l l' : List Char} (h : trim (dropComment l) = trim (dropComment l')) :
    parseLine l = parseLine l' := by
  simp only [parseLine, h]

theorem parseLine_nil : parseLine [] = .skip := rfl

/-- Binary digits are neither whitespace nor a comment, so they are read as they stand. -/
theorem trim_dropComment_digits {ds : List Char} (h : ∀ d ∈ ds, d = '0' ∨ d = '1') : trim (dropComment ds) = ds := by
  have hspace : ∀ d ∈ ds, isSpace d = false := fun d hd => by rcases h d hd with rfl | rfl <;> decide
  rw [dropComment_eq_self fun hmem => absurd (h _ hmem) (by decide)]
  exact trim_eq_self (fun c hc => hspace c (List.mem_of_mem_head? hc)) (fun c hc => hspace c (List.mem_of_getLast? hc))

theorem all_isBinaryDigit_iff {ds : List Char} : ds.all isBinaryDigit = true ↔ ∀ d ∈ ds, d = '0' ∨ d = '1' := by
  simp [isBinaryDigit]

theorem parseLine_of_few_digits {ds : List Char} (hne : ds ≠ []) (h : ∀ d ∈ ds, d = '0' ∨ d = '1')
    (hlen : ds.length ≤ 8) : parseLine ds = .byte (BitVec.ofNat 8 (binaryValue ds)) := by
  simp [parseLine, trim_dropComment_digits h, all_isBinaryDigit_iff.2 h, hne, hlen]

theorem parseLine_of_many_digits {ds : List Char} (h : ∀ d ∈ ds, d = '0' ∨ d = '1') (hlen : 8 < ds.length) :
    parseLine ds = .badLiteral := by
  have hne : ds ≠ [] := List.ne_nil_of_length_pos (by omega)
  simp [parseLine, trim_dropComment_digits h, all_isBinaryDigit_iff.2 h, hne, hlen]

theorem parseLine_of_other_character {l : List Char} {d : Char} (hd : d ∈ trim (dropComment l)) (h0 : d ≠ '0')
    (h1 : d ≠ '1') : parseLine l = .skip := by
  have hother : (trim (dropComment l)).all isBinaryDigit = false :=
    Bool.eq_false_iff.2 fun hall => (all_isBinaryDigit_iff.1 hall d hd).elim h0 h1
  simp [parseLine, hother]

/-! ### The value of binary digits -/

/-- The value of a binary digit. -/
abbrev digitValue (d : Char) : Nat := if d = '1' then 1 else 0

/-- Reading digits from the left gives the number they write, the last digit being the least significant. -/
theorem binaryValue_eq_ofDigits (ds : List Char) : binaryValue ds = Nat.ofDigits 2 (ds.reverse.map digitValue) := by
  induction ds using List.reverseRecOn with
  | nil => rfl
  | append_singleton ds d ih =>
    have hstep : binaryValue (ds ++ [d]) = 2 * binaryValue ds + digitValue d := by simp [binaryValue, digitValue]
    rw [hstep, ih, List.reverse_append, List.reverse_singleton, List.singleton_append, List.map_cons, Nat.ofDigits_cons,
      Nat.add_comm]

theorem binaryValue_lt (ds : List Char) : binaryValue ds < 2 ^ ds.length := by
  have hdigits : ∀ n ∈ ds.reverse.map digitValue, n < 2 := by
    intro n hn
    obtain ⟨d, -, rfl⟩ := List.mem_map.1 hn
    unfold digitValue
    split <;> decide
  simpa [binaryValue_eq_ofDigits] using Nat.ofDigits_lt_base_pow_length (by decide) hdigits

/-! ### The statement about program lines -/

/-- Settles O56: a comment and outer whitespace are gone before a line is read; then it is empty, binary digits, or it has
another character. -/
theorem programLinesAreReadAsBytes : Obligations.ProgramLinesAreReadAsBytes := by
  refine ⟨fun a c ha => ?_, fun a l b hab => ?_, rfl, fun ds hne hds hlen => ?_, fun _ => parseLine_of_many_digits,
    fun l hl => ?_, fun l d hcomment hhead hlast hd h0 h1 => ?_⟩
  · have hbehind : dropComment ('#' :: c) = [] := rfl
    refine parseLine_congr ?_
    rw [dropComment_append ha, hbehind, List.append_nil, dropComment_eq_self ha]
  · have ha : Blank a := fun c hc => hab c (List.mem_append_left b hc)
    have hb : Blank b := fun c hc => hab c (List.mem_append_right a hc)
    exact parseLine_congr (trim_dropComment_blank ha hb l)
  · refine ⟨_, parseLine_of_few_digits hne hds hlen, ?_⟩
    have hbyte : binaryValue ds < 2 ^ 8 :=
      Nat.lt_of_lt_of_le (binaryValue_lt ds) (Nat.pow_le_pow_right (by decide) hlen)
    rw [BitVec.toNat_ofNat, Nat.mod_eq_of_lt hbyte, binaryValue_eq_ofDigits]
  · have hblank := trim_dropComment_blank (a := l) (b := []) hl (List.forall_mem_nil _) []
    rw [List.append_nil, List.append_nil] at hblank
    exact (parseLine_congr hblank).trans parseLine_nil
  · have hwhole : trim (dropComment l) = l := by rw [dropComment_eq_self hcomment, trim_eq_self hhead hlast]
    exact parseLine_of_other_character (hwhole.symm ▸ hd) h0 h1

end Sys2Proof.Machine
end

section
/-! SUPPORT. The meaning of the other instructions on register operands, one equation each (41_alu.md to 44_control_flow.md), how
an instruction ends inside memory and past its end (R70, R71), and the proofs of the statements about each instruction's effect
and frame. -/

namespace Sys2Proof.Machine

/-! ### Instructions on register operands -/

theorem exec_add (s : State) (ra rb : Reg) : exec (.add (regByte ra) (regByte rb)) s = .next (seqNext .add 3
    (writeReg s ra (BitVec.ofNat 8 (((readReg s ra).toNat + (readReg s rb).toNat) % 256)))) :=
  congrArg Host.Outcome.next (withRegs_regByte ..)

theorem exec_mul (s : State) (ra rb : Reg) : exec (.mul (regByte ra) (regByte rb)) s = .next (seqNext .mul 3
    (writeReg s ra (BitVec.ofNat 8 (((readReg s ra).toNat * (readReg s rb).toNat) % 256)))) :=
  congrArg Host.Outcome.next (withRegs_regByte ..)

theorem exec_cmp (s : State) (ra rb : Reg) : exec (.cmp (regByte ra) (regByte rb)) s = .next (seqNext .cmp 3
    (setFlags s (compareFlags (readReg s ra) (readReg s rb)))) :=
  congrArg Host.Outcome.next (withRegs_regByte ..)

theorem exec_prn (s : State) (ra : Reg) :
    exec (.prn (regByte ra)) s = .next (seqNext .prn 2 (emit s (readReg s ra))) :=
  congrArg Host.Outcome.next (withReg_regByte ..)

theorem exec_jmp (s : State) (ra : Reg) : exec (.jmp (regByte ra)) s = .next (setPc s (readReg s ra)) :=
  congrArg Host.Outcome.next (withReg_regByte ..)

theorem exec_jeq_taken {s : State} (ra : Reg) (hE : s.flags.e = true) :
    exec (.jeq (regByte ra)) s = .next (setPc s (readReg s ra)) :=
  congrArg Host.Outcome.next ((withReg_regByte ..).trans (if_pos hE))

theorem exec_jeq_next {s : State} (ra : Reg) (hE : s.flags.e = false) :
    exec (.jeq (regByte ra)) s = .next (seqNext .jeq 2 s) :=
  congrArg Host.Outcome.next ((withReg_regByte ..).trans (if_neg (Bool.eq_false_iff.1 hE)))

theorem exec_jne_taken {s : State} (ra : Reg) (hE : s.flags.e = false) :
    exec (.jne (regByte ra)) s = .next (setPc s (readReg s ra)) :=
  congrArg Host.Outcome.next ((withReg_regByte ..).trans (if_neg (Bool.eq_false_iff.1 hE)))

theorem exec_jne_next {s : State} (ra : Reg) (hE : s.flags.e = true) :
    exec (.jne (regByte ra)) s = .next (seqNext .jne 2 s) :=
  congrArg Host.Outcome.next ((withReg_regByte ..).trans (if_pos hE))

theorem exec_call_outside {s : State} (ra : Reg) (h : s.pc.toNat + 2 > 255) :
    exec (.call (regByte ra)) s = .next (raise .outOfBounds (opcodeByte s .call) (s.pc.toNat + 2) s) :=
  congrArg Host.Outcome.next ((withReg_regByte ..).trans (if_pos h))

theorem exec_hlt (s : State) : exec .hlt s = .next (haltRun s) := rfl

/-! ### The end of a sequential instruction -/

/-- Inside memory an instruction ends by moving PC past itself. -/
theorem exec_of_seqNext_inside {i : Instr} {k : Opcode} {n : Nat} {s u : State}
    (he : exec i s = .next (seqNext k n u)) (h : u.pc.toNat + n ≤ 255) :
    exec i s = .next (setPc u (BitVec.ofNat 8 (u.pc.toNat + n))) := by rw [he, seqNext_inside k h]

/-- A next PC inside memory is a byte. -/
theorem toNat_nextPc {pc : Byte} {n : Nat} (h : pc.toNat + n ≤ 255) :
    (BitVec.ofNat 8 (pc.toNat + n)).toNat = pc.toNat + n := by
  rw [BitVec.toNat_ofNat]
  omega

/-- CALL's return address is a byte where CALL completes. -/
theorem toNat_returnAddress {pc : Byte} (h : pc.toNat ≤ 253) : (pc + 2).toNat = pc.toNat + 2 := by
  bv_omega

theorem opcode_length_le (k : Opcode) : k.length ≤ 3 := by cases k <;> decide

/-- Past the end of memory an instruction that has brought the machine to `u` has there all the effects it has at address 0
(R71). -/
theorem exec_overflow {i : Instr} {s u : State} (he : exec i s = .next (seqNext i.opcode i.opcode.length u))
    (hpc : u.pc = s.pc) (hconfig : u.config = s.config) (h : s.pc.toNat + i.opcode.length > 255) :
    exec i s = .next { seqNext i.opcode i.opcode.length { u with pc := 0 } with
      pc          := s.pc
      runState    := .faulted
      faultRecord := some ⟨.outOfBounds, s.pc, s.config.opcodes.byteOf i.opcode, s.pc.toNat + i.opcode.length⟩ } := by
  have hzero : (0 : Byte).toNat + i.opcode.length ≤ 255 := by
    have := opcode_length_le i.opcode
    change 0 + i.opcode.length ≤ 255
    omega
  rw [he, seqNext_outside _ (hpc ▸ h), seqNext_inside _ hzero, ← hpc, ← hconfig]
  rfl

/-! ### The statements about each instruction -/

/-- Settles O1: the write of the register, then the next PC. -/
theorem ldiLoadsTheImmediate : Obligations.LdiLoadsTheImmediate := by
  intro s ra b hpc
  have hnext : s.pc.toNat + 3 ≤ 255 := by omega
  exact ⟨_, exec_of_seqNext_inside (exec_ldi s ra b) hnext, readReg_writeReg_self .., toNat_nextPc hnext,
    fun _ => readReg_writeReg_ne s b, rfl, rfl, rfl, fun _ => rfl, rfl, rfl, rfl⟩

/-- Settles O2: both operands are read from the state before the write. -/
theorem addWritesTheSumModulo256 : Obligations.AddWritesTheSumModulo256 := by
  intro s ra rb hpc
  have hnext : s.pc.toNat + 3 ≤ 255 := by omega
  refine ⟨_, exec_of_seqNext_inside (exec_add s ra rb) hnext, ?_, toNat_nextPc hnext,
    fun _ => readReg_writeReg_ne s _, rfl, rfl, rfl, fun _ => rfl, rfl, rfl, rfl⟩
  rw [setPc_readReg, readReg_writeReg_self, toNat_ofNat_mod256]

/-- Settles O3: both operands are read from the state before the write. -/
theorem mulWritesTheProductModulo256 : Obligations.MulWritesTheProductModulo256 := by
  intro s ra rb hpc
  have hnext : s.pc.toNat + 3 ≤ 255 := by omega
  refine ⟨_, exec_of_seqNext_inside (exec_mul s ra rb) hnext, ?_, toNat_nextPc hnext,
    fun _ => readReg_writeReg_ne s _, rfl, rfl, rfl, fun _ => rfl, rfl, rfl, rfl⟩
  rw [setPc_readReg, readReg_writeReg_self, toNat_ofNat_mod256]

/-- Settles O4: the flags are the ALU's comparison of the two registers. -/
theorem cmpSetsExactlyOneFlag : Obligations.CmpSetsExactlyOneFlag := by
  intro s ra rb hpc
  have hnext : s.pc.toNat + 3 ≤ 255 := by omega
  exact ⟨_, exec_of_seqNext_inside (exec_cmp s ra rb) hnext, compareFlags_e_iff .., compareFlags_g_iff ..,
    compareFlags_l_iff .., compareFlags_exactly_one .., toNat_nextPc hnext,
    fun _ => rfl, rfl, rfl, fun _ => rfl, rfl, rfl, rfl⟩

/-- Settles O5: the byte is emitted, then the next PC. -/
theorem prnAppendsTheRegister : Obligations.PrnAppendsTheRegister := by
  intro s ra hpc
  have hnext : s.pc.toNat + 2 ≤ 255 := by omega
  exact ⟨_, exec_of_seqNext_inside (exec_prn s ra) hnext, rfl, toNat_nextPc hnext,
    fun _ => rfl, rfl, rfl, fun _ => rfl, rfl, rfl, rfl⟩

/-- Settles O6: the cells of a push, then the next PC. -/
theorem pushStoresBelowTheStack : Obligations.PushStoresBelowTheStack := by
  intro s ra hm hpc
  have hnext : s.pc.toNat + 2 ≤ 255 := by omega
  exact ⟨_, exec_of_seqNext_inside (exec_push s ra) hnext, rfl, pushByte_cell_self hm _, fun _ => pushByte_cell_ne s _,
    toNat_nextPc hnext, fun _ => rfl, rfl, rfl, rfl, rfl, rfl⟩

/-- Settles O7: the register gets the byte read at the old SP. -/
theorem popLoadsTheTopOfTheStack : Obligations.PopLoadsTheTopOfTheStack := by
  intro s ra hpc
  have hnext : s.pc.toNat + 2 ≤ 255 := by omega
  exact ⟨_, exec_of_seqNext_inside (exec_pop s ra) hnext, readReg_writeReg_self .., rfl, toNat_nextPc hnext,
    fun _ => readReg_writeReg_ne (popSp s) _, rfl, rfl, fun _ => rfl, rfl, rfl, rfl⟩

/-- Settles O8: a jump moves PC only, to a byte. -/
theorem jmpGoesToTheRegister : Obligations.JmpGoesToTheRegister :=
  fun s ra => ⟨_, exec_jmp s ra, rfl, fun _ => rfl, rfl, rfl, rfl, fun _ => rfl, rfl, rfl, rfl⟩

/-- Settles O9: with E set the jump, with E clear the next PC. -/
theorem jeqJumpsExactlyWhenEqual : Obligations.JeqJumpsExactlyWhenEqual := by
  intro s ra h
  cases hE : s.flags.e with
  | true => exact ⟨_, exec_jeq_taken ra hE, fun _ => rfl, nofun, fun _ => rfl, rfl, rfl, rfl, fun _ => rfl, rfl, rfl, rfl⟩
  | false =>
    have hpc : s.pc.toNat ≤ 253 := h.resolve_left (Bool.eq_false_iff.1 hE)
    have hnext : s.pc.toNat + 2 ≤ 255 := by omega
    exact ⟨_, exec_of_seqNext_inside (exec_jeq_next ra hE) hnext, nofun, fun _ => toNat_nextPc hnext,
      fun _ => rfl, rfl, rfl, rfl, fun _ => rfl, rfl, rfl, rfl⟩

/-- Settles O10: with E clear the jump, with E set the next PC. -/
theorem jneJumpsExactlyWhenNotEqual : Obligations.JneJumpsExactlyWhenNotEqual := by
  intro s ra h
  cases hE : s.flags.e with
  | false => exact ⟨_, exec_jne_taken ra hE, fun _ => rfl, nofun, fun _ => rfl, rfl, rfl, rfl, fun _ => rfl, rfl, rfl, rfl⟩
  | true =>
    have hpc : s.pc.toNat ≤ 253 := h.resolve_left fun hclear => Bool.eq_false_iff.1 hclear hE
    have hnext : s.pc.toNat + 2 ≤ 255 := by omega
    exact ⟨_, exec_of_seqNext_inside (exec_jne_next ra hE) hnext, nofun, fun _ => toNat_nextPc hnext,
      fun _ => rfl, rfl, rfl, rfl, fun _ => rfl, rfl, rfl, rfl⟩

/-- Settles O11: the cells of the return address's push, and the target read before it. -/
theorem callPushesTheReturnAddress : Obligations.CallPushesTheReturnAddress := by
  intro s ra hm hpc
  refine ⟨_, exec_call_inside ra (by omega), rfl, rfl, ?_, fun _ => pushByte_cell_ne s _,
    fun _ => rfl, rfl, rfl, rfl, rfl, rfl⟩
  rw [setPc_mem, pushByte_cell_self hm, toNat_returnAddress hpc]

/-- Settles O12: RET moves SP and PC only. -/
theorem retGoesToThePoppedByte : Obligations.RetGoesToThePoppedByte :=
  fun s => ⟨_, exec_ret s, rfl, rfl, fun _ => rfl, rfl, rfl, fun _ => rfl, rfl, rfl, rfl⟩

/-- Settles O13: HLT writes the run state only. -/
theorem hltHaltsAndChangesNothingElse : Obligations.HltHaltsAndChangesNothingElse :=
  fun s => ⟨_, exec_hlt s, rfl, rfl, fun _ => rfl, rfl, rfl, rfl, fun _ => rfl, rfl, rfl⟩

/-- Settles O17: the return address is checked before the push. -/
theorem callFaultsWhereTheReturnAddressDoesNotFit : Obligations.CallFaultsWhereTheReturnAddressDoesNotFit :=
  fun _ ra hpc => exec_call_outside ra (by omega)

/-- A well-formed instruction has no register operand above 7. -/
theorem not_bad_of_wellFormed {i : Instr} (h : i.wellFormed = true) {b : Byte} (hb : b ∈ i.registerOperands) :
    ¬ 7 < b.toNat :=
  Nat.not_lt.2 (of_decide_eq_true (List.all_eq_true.1 h b hb))

/-- Settles O18: each sequential instruction ends in SeqNext after effects that do not depend on PC; the other ways to run are
a bad operand, or no sequential instruction. -/
theorem sequentialOverflowKeepsTheEffects : Obligations.SequentialOverflowKeepsTheEffects := by
  intro i s t hwf hseq hout h
  cases exec_ran h with
  | badRegister _ b hb hbad => exact absurd hbad (not_bad_of_wellFormed hwf hb)
  | ldi ra b => exact exec_overflow (exec_ldi s ra b) rfl rfl hout
  | add ra rb => exact exec_overflow (exec_add s ra rb) rfl rfl hout
  | mul ra rb => exact exec_overflow (exec_mul s ra rb) rfl rfl hout
  | cmp ra rb => exact exec_overflow (exec_cmp s ra rb) rfl rfl hout
  | prn ra => exact exec_overflow (exec_prn s ra) rfl rfl hout
  | push ra => exact exec_overflow (exec_push s ra) rfl rfl hout
  | pop ra => exact exec_overflow (exec_pop s ra) rfl rfl hout
  | jeqNext ra hE => exact exec_overflow (exec_jeq_next ra hE) rfl rfl hout
  | jneNext ra hE => exact exec_overflow (exec_jne_next ra hE) rfl rfl hout
  | jeqTaken _ hE =>
    have hclear : s.flags.e = false := by simpa [Instr.opcode] using hseq
    cases hE.symm.trans hclear
  | jneTaken _ hE =>
    have hset : s.flags.e = true := by simpa [Instr.opcode] using hseq
    cases hE.symm.trans hset
  | jmp | call | callOutside | ret | hlt => simp [Instr.opcode] at hseq

end Sys2Proof.Machine
end

section
/-! SUPPORT. What a step fetches: the bytes an instruction's encoding stands in, a memory that agrees on them (R36), and a cell
just stored (R46, R130); stack round trips; a stopped machine; and the proofs of the statements about them. -/

namespace Sys2Proof.Machine

/-! ### Reading bytes from memory -/

theorem memRead_eq_some_iff {m : Memory} {addr : Nat} {b : Byte} :
    memRead m addr = some b ↔ addr ≤ 255 ∧ m.cell addr = b := by
  by_cases h : addr ≤ 255
  · simp [memRead_of_le m h, h]
  · simp [memRead, h, Nat.lt_of_not_le h]

/-- Bytes that stand in memory from an address on are what is read there. -/
theorem readFrom_eq {m : Memory} {addr : Nat} {bs : List Byte} (hin : addr + bs.length ≤ 256)
    (h : ∀ (j : Nat) (hj : j < bs.length), m.cell (addr + j) = bs[j]) : readFrom m addr bs.length = bs :=
  List.ext_getElem (by rw [readFrom_length]; omega) fun j _ hj => by rw [readFrom_getElem, h j hj]

/-- Reading depends on the cells read and on no other. -/
theorem readFrom_congr {m m' : Memory} {addr n : Nat} (h : ∀ j, j < n → m.cell (addr + j) = m'.cell (addr + j)) :
    readFrom m addr n = readFrom m' addr n := by
  refine List.ext_getElem (by rw [readFrom_length, readFrom_length]) fun j hj _ => ?_
  rw [readFrom_length] at hj
  rw [readFrom_getElem, readFrom_getElem, h j (by omega)]

/-! ### The next step and a cell -/

/-- The next step of a running machine uses what stands in memory, at every cell. -/
theorem nextStepUses_cell {t : State} (hr : t.runState = .running) (addr : Nat) :
    NextStepUses t addr (t.mem.cell addr) := by
  refine ⟨fun hpc => ?_, fun k j hk hin hj haddr => ?_⟩
  · subst hpc
    refine ⟨fun hne => step_of_no_opcode hr (opcodeOf_none.2 hne), fun k hk hin => ?_⟩
    have hname : t.nameAtPc = some k := by
      rw [State.nameAtPc, State.opcodeAtPc, ← hk, opcodeOf_byteOf_config]
    obtain ⟨i, rest, hf, hi⟩ := fetchDecode_of_operands_inside hname hin
    exact ⟨i, hi, step_of_fetched hr hf⟩
  · subst haddr
    obtain ⟨i, rest, hf, rfl⟩ := fetchDecode_of_operands_inside hk hin
    have hj' : j < i.operands.length := operands_length i ▸ hj
    refine ⟨i, rfl, step_of_fetched hr hf, ?_⟩
    rw [List.getElem?_eq_getElem hj', (memRead_eq_some_iff.1 (memRead_operand_of_fetched hf hj')).2]

/-! ### Steps -/

/-- Every step answers a next state. -/
theorem step_answers (s : State) : ∃ t, step s = .next t := by
  by_cases hr : s.runState = .running
  · cases hf : fetchDecode s with
    | error r => exact ⟨_, step_of_rejected hr hf⟩
    | ok p => rw [step_of_fetched hr hf]; exact exec_answers p.1 s
  · exact ⟨s, step_of_stopped hr⟩

/-- A state that steps to itself runs to itself. -/
theorem run_of_step_self {M : Host.Core} {s : M.State} (h : M.step s = .next s) (n : Nat) : M.run n s = .next s := by
  induction n with
  | zero => rfl
  | succ n ih => simp only [Host.Core.run, h, ih]

/-! ### The statements about fetching and stepping -/

/-- Settles O23: the first byte of the encoding names the instruction, the last lies inside memory, and those between are the
operands read. -/
theorem stepRunsTheEncodedInstruction : Obligations.StepRunsTheEncodedInstruction := by
  intro s i hr h
  have hlen : (encode s.config.opcodes i).length = i.operands.length + 1 := rfl
  have hop := (memRead_eq_some_iff.1 (h 0 (by omega))).2
  have hlast := (memRead_eq_some_iff.1 (h i.operands.length (by omega))).1
  have hname : s.nameAtPc = some i.opcode := by
    have hbyte : s.opcodeAtPc = s.config.opcodes.byteOf i.opcode := hop
    rw [State.nameAtPc, hbyte, opcodeOf_byteOf_config]
  have hread : readFrom s.mem (s.pc.toNat + 1) i.opcode.operandCount = i.operands := by
    rw [← operands_length]
    refine readFrom_eq (by omega) fun j hj => ?_
    have hcell := (memRead_eq_some_iff.1 (h (j + 1) (by omega))).2
    rw [Nat.add_assoc, Nat.add_comm 1 j]
    exact hcell
  have hfetch : fetchDecode s = .ok (i, []) := by
    rw [fetchDecode_of_opcode hname, hread, ← decodeOperands_operands i [], List.append_nil]
  exact step_of_fetched hr hfetch

/-- Settles O24: a stopped machine's step answers the state itself, and so do any number of them. -/
theorem aStoppedMachineNeverChanges : Obligations.AStoppedMachineNeverChanges := by
  intro s n hs
  have hstopped : s.runState ≠ .running := by rcases hs with h | h <;> rw [h] <;> decide
  exact run_of_step_self (step_of_stopped hstopped) n

/-- Settles O25: a step answers the state itself, a fetch fault, or what the instruction answers. -/
theorem everyStepAnswersANextState : Obligations.EveryStepAnswersANextState := step_answers

/-- Settles O34: both memories hold the same opcode byte and the same operand bytes. -/
theorem fetchReadsOnlyTheBytesOfTheInstruction : Obligations.FetchReadsOnlyTheBytesOfTheInstruction := by
  intro s mem k hk hcells
  have hop : State.opcodeAtPc { s with mem := mem } = s.opcodeAtPc := hcells 0 (Nat.zero_le _)
  have hk' : State.nameAtPc { s with mem := mem } = some k := by rw [State.nameAtPc, hop]; exact hk
  rw [fetchDecode_of_opcode hk, fetchDecode_of_opcode hk']
  refine congrArg (decodeOperands k) (readFrom_congr fun j hj => ?_)
  rw [Nat.add_assoc, Nat.add_comm 1 j]
  exact hcells (j + 1) hj

/-- Settles O35: the stored byte is what the cell holds after PUSH or CALL, and the next step uses what its cells hold. -/
theorem aPushedByteIsFetchedByTheNextStep : Obligations.APushedByteIsFetchedByTheNextStep := by
  intro s ra hm hr hpc
  have hnext : s.pc.toNat + 2 ≤ 255 := by omega
  constructor
  · refine ⟨_, exec_of_seqNext_inside (exec_push s ra) hnext, hr, toNat_nextPc hnext, ?_⟩
    have huses := nextStepUses_cell (t := setPc (pushByte s (readReg s ra)) (BitVec.ofNat 8 (s.pc.toNat + 2))) hr
      (spDown s.sp).toNat
    rwa [setPc_mem, pushByte_cell_self hm] at huses
  · refine ⟨_, exec_call_inside ra hnext, hr, rfl, ?_⟩
    have huses := nextStepUses_cell (t := setPc (pushByte s (s.pc + 2)) (readReg s ra)) hr (spDown s.sp).toNat
    rwa [setPc_mem, pushByte_cell_self hm] at huses

/-! ### Stack round trips -/

/-- The byte popped right after a push is the one pushed. -/
theorem poppedByte_pushByte {s : State} (hm : s.mem.wf) (v target : Byte) :
    poppedByte (setPc (pushByte s v) target) = v := pushByte_cell_self hm v

/-- Settles O38: POP reads the byte PUSH stored, so the register is written with its own value. -/
theorem pushThenPopRestores : Obligations.PushThenPopRestores := by
  intro s ra hm hpc
  have hpush : s.pc.toNat + 2 ≤ 255 := by omega
  have hmid := toNat_nextPc hpush
  have hpop : (BitVec.ofNat 8 (s.pc.toNat + 2)).toNat + 2 ≤ 255 := by omega
  refine ⟨_, _, exec_of_seqNext_inside (exec_push s ra) hpush, exec_of_seqNext_inside (exec_pop _ ra) hpop,
    fun r => ?_, spUp_spDown s.sp, rfl, ?_⟩
  · rw [setPc_readReg]
    by_cases hra : r = ra
    · rw [hra, readReg_writeReg_self, poppedByte_pushByte hm]
    · exact readReg_writeReg_ne _ _ hra
  · exact (toNat_nextPc hpop).trans (congrArg (· + 2) hmid)

/-- Settles O39: RET pops the return address that CALL pushed. -/
theorem callThenRetReturns : Obligations.CallThenRetReturns := by
  intro s ra hm hpc
  refine ⟨_, _, exec_call_inside ra (by omega), exec_ret _, ?_, spUp_spDown s.sp, fun _ => rfl⟩
  rw [setPc_pc, poppedByte_pushByte hm, toNat_returnAddress hpc]

end Sys2Proof.Machine
end

section
/-! SUPPORT. What each instruction leaves alone (R15, R21, R22, R25, R32), lifted once from the ways an instruction runs to a
step, that no instruction reads G or L, and the proofs of the six statements about what a step writes. -/

namespace Sys2Proof.Machine

/-! ### From an instruction to a step -/

/-- What holds of the state itself, of every fault raised in it, and of every state its instruction can lead to, holds after a
step. -/
theorem step_induction {s t : State} (h : step s = .next t) {P : State → Prop} (stopped : P s)
    (fault : ∀ kind op n, P (raise kind op n s))
    (ran : ∀ i, s.runState = .running → s.nameAtPc = some i.opcode → Ran s i t → P t) : P t := by
  rcases step_cases h with ⟨-, rfl⟩ | ⟨-, -, rfl⟩ | ⟨k, -, -, -, rfl⟩ | ⟨i, hr, hk, -, -, hran⟩
  · exact stopped
  · exact fault ..
  · exact fault ..
  · exact ran i hr hk hran

/-! ### What an instruction leaves alone -/

namespace Ran

variable {s t : State} {i : Instr}

theorem flags_eq (h : Ran s i t) (hi : some i.opcode ≠ some .cmp) : t.flags = s.flags := by
  cases h with
  | cmp => exact absurd rfl hi
  | _ => simp

theorem sp_eq (h : Ran s i t) (hi : some i.opcode ∉ [some .push, some .pop, some .call, some .ret]) : t.sp = s.sp := by
  cases h with
  | push | pop | call | ret => simp [Instr.opcode] at hi
  | _ => simp

theorem mem_eq (h : Ran s i t) (hi : some i.opcode ∉ [some .push, some .call]) : t.mem = s.mem := by
  cases h with
  | push | call => simp [Instr.opcode] at hi
  | _ => simp

theorem keepsRegs (h : Ran s i t) (hi : some i.opcode ∉ [some .ldi, some .add, some .mul, some .pop]) : KeepsRegs s t := by
  cases h with
  | ldi | add | mul | pop => simp [Instr.opcode] at hi
  | _ => exact fun r => by simp

theorem keepsRegsExcept (h : Ran s i t) : ∃ d, KeepsRegsExcept d s t := by
  cases h with
  | ldi ra | add ra | mul ra | pop ra => exact ⟨ra, fun r hr => by simp [readReg_writeReg_ne _ _ hr]⟩
  | _ => exact ⟨0, fun r _ => by simp⟩

theorem out_eq (h : Ran s i t) (hi : some i.opcode ≠ some .prn) : t.out = s.out := by
  cases h with
  | prn => exact absurd rfl hi
  | _ => simp

theorem out_eq_or_append (h : Ran s i t) : t.out = s.out ∨ ∃ v, t.out = s.out ++ [v] := by
  cases h with
  | prn ra => exact .inr ⟨readReg s ra, by simp⟩
  | _ => exact .inl (by simp)

end Ran

/-! ### Machines that differ in G and L -/

theorem seqNext_setFlags (k : Opcode) (n : Nat) (s : State) (f : Flags) :
    seqNext k n (setFlags s f) = setFlags (seqNext k n s) f := by
  unfold seqNext
  rw [apply_ite fun u => setFlags u f]
  rfl

/-- A sequential instruction whose effect is the same at other flags gives the same result at other flags. -/
theorem exec_setFlags_of_seqNext {i : Instr} {k : Opcode} {n : Nat} {s u : State} {f : Flags}
    (h : exec i s = .next (seqNext k n (setFlags u f))) : exec i s = .next (setFlags (seqNext k n u) f) :=
  h.trans (congrArg Host.Outcome.next (seqNext_setFlags k n u f))

/-- At flags that differ in G and L alone an instruction answers a state that differs in the flags alone, with the same E: CMP
writes all three, and no other instruction reads G or L. -/
theorem exec_setFlags {i : Instr} {s t : State} {f : Flags} (hE : f.e = s.flags.e) (h : exec i s = .next t) :
    ∃ f', exec i (setFlags s f) = .next (setFlags t f') ∧ f'.e = t.flags.e := by
  cases hbad : firstBad i.registerOperands with
  | some c =>
    rw [exec_of_firstBad hbad] at h
    cases h
    exact ⟨f, exec_of_firstBad hbad _, hE⟩
  | none =>
    cases exec_ran h with
    | badRegister _ b hb hlt => exact absurd (decide_eq_true hlt) (List.find?_eq_none.1 hbad b hb)
    | cmp ra rb => exact ⟨_, exec_setFlags_of_seqNext (exec_cmp _ ra rb), by simp⟩
    | ldi ra b => exact ⟨f, exec_setFlags_of_seqNext (exec_ldi _ ra b), by simpa using hE⟩
    | add ra rb => exact ⟨f, exec_setFlags_of_seqNext (exec_add _ ra rb), by simpa using hE⟩
    | mul ra rb => exact ⟨f, exec_setFlags_of_seqNext (exec_mul _ ra rb), by simpa using hE⟩
    | prn ra => exact ⟨f, exec_setFlags_of_seqNext (exec_prn _ ra), by simpa using hE⟩
    | push ra => exact ⟨f, exec_setFlags_of_seqNext (exec_push _ ra), by simpa using hE⟩
    | pop ra => exact ⟨f, exec_setFlags_of_seqNext (exec_pop _ ra), by simpa using hE⟩
    | jmp ra => exact ⟨f, exec_jmp _ ra, hE⟩
    | jeqTaken ra e => exact ⟨f, exec_jeq_taken ra (hE.trans e), hE⟩
    | jeqNext ra e => exact ⟨f, exec_setFlags_of_seqNext (exec_jeq_next ra (hE.trans e)), by simpa using hE⟩
    | jneTaken ra e => exact ⟨f, exec_jne_taken ra (hE.trans e), hE⟩
    | jneNext ra e => exact ⟨f, exec_setFlags_of_seqNext (exec_jne_next ra (hE.trans e)), by simpa using hE⟩
    | call ra fits => exact ⟨f, exec_call_inside ra fits, hE⟩
    | callOutside ra outside => exact ⟨f, exec_call_outside ra outside, hE⟩
    | ret => exact ⟨f, rfl, hE⟩
    | hlt => exact ⟨f, rfl, hE⟩

theorem raiseReject_setFlags (r : Reject) (s : State) (f : Flags) :
    raiseReject r (setFlags s f) = setFlags (raiseReject r s) f := by cases r <;> rfl

theorem raiseReject_flags (r : Reject) (s : State) : (raiseReject r s).flags = s.flags := by cases r <;> rfl

/-- The same of a step: fetching looks at no flag. -/
theorem step_setFlags {s t : State} {f : Flags} (hE : f.e = s.flags.e) (h : step s = .next t) :
    ∃ f', step (setFlags s f) = .next (setFlags t f') ∧ f'.e = t.flags.e := by
  by_cases hr : s.runState = .running
  · cases hf : fetchDecode s with
    | error r =>
      rw [step_of_rejected hr hf] at h
      cases h
      refine ⟨f, ?_, (raiseReject_flags r s).symm ▸ hE⟩
      rw [step_of_rejected (s := setFlags s f) hr hf, raiseReject_setFlags]
    | ok p =>
      rw [step_of_fetched hr hf] at h
      rw [step_of_fetched (s := setFlags s f) hr hf]
      exact exec_setFlags hE h
  · rw [step_of_stopped hr] at h
    cases h
    exact ⟨f, step_of_stopped hr, hE⟩

/-! ### The statements about what a step writes -/

/-- Settles O27: of the thirteen only CMP writes the flags, and a fault keeps them. -/
theorem onlyCmpWritesTheFlags : Obligations.OnlyCmpWritesTheFlags := fun s _ h hne =>
  step_induction h (P := fun t => t.flags = s.flags) rfl (fun _ _ _ => rfl) fun _ _ hi hran => hran.flags_eq (hi ▸ hne)

/-- Settles O28: the two steps' results differ in the flags alone, and agree in E. -/
theorem greaterAndLessAreNeverRead : Obligations.GreaterAndLessAreNeverRead := by
  intro s t g l h
  obtain ⟨f', hstep, hE⟩ := step_setFlags (f := ⟨s.flags.e, g, l⟩) rfl h
  exact ⟨_, hstep, rfl, hE⟩

/-- Settles O29: of the thirteen only the stack instructions write SP, and only the two that push write memory. -/
theorem onlyStackInstructionsTouchTheStack : Obligations.OnlyStackInstructionsTouchTheStack := by
  refine fun s t h => ⟨fun hne => ?_, fun hne => ?_⟩
  · exact step_induction h (P := fun t => t.sp = s.sp) rfl (fun _ _ _ => rfl) fun _ _ hi hran => hran.sp_eq (hi ▸ hne)
  · have hmem : t.mem = s.mem :=
      step_induction h (P := fun t => t.mem = s.mem) rfl (fun _ _ _ => rfl) fun _ _ hi hran => hran.mem_eq (hi ▸ hne)
    exact fun addr => by rw [hmem]

/-- Settles O30: of the thirteen only four write registers, and each names the one it writes. -/
theorem onlyFourInstructionsWriteRegisters : Obligations.OnlyFourInstructionsWriteRegisters := fun s _ h =>
  ⟨fun hne => step_induction h (P := KeepsRegs s) (fun _ => rfl) (fun _ _ _ _ => rfl)
      fun _ _ hi hran => hran.keepsRegs (hi ▸ hne),
    step_induction h (P := fun t => ∃ d, KeepsRegsExcept d s t) ⟨0, fun _ _ => rfl⟩ (fun _ _ _ => ⟨0, fun _ _ => rfl⟩)
      fun _ _ _ hran => hran.keepsRegsExcept⟩

/-- Settles O31: of the thirteen only PRN emits, and it emits one byte. -/
theorem onlyPrnExtendsTheOutput : Obligations.OnlyPrnExtendsTheOutput := fun s _ h =>
  ⟨fun hne => step_induction h (P := fun t => t.out = s.out) rfl (fun _ _ _ => rfl)
      fun _ _ hi hran => hran.out_eq (hi ▸ hne),
    step_induction h (P := fun t => t.out = s.out ∨ ∃ v, t.out = s.out ++ [v]) (.inl rfl) (fun _ _ _ => .inl rfl)
      fun _ _ _ hran => hran.out_eq_or_append⟩

end Sys2Proof.Machine
end

section
/-! SUPPORT. How a step ends a run: the ways it can fault, each with the state it leaves (R98 to R101, R104), said once; when it
halts (R96); that it keeps the invariant; and the proofs of the statements about them. -/

namespace Sys2Proof.Machine

/-! ### The run state after SeqNext -/

@[simp] theorem seqNext_halted_iff (k : Opcode) (n : Nat) (u : State) :
    (seqNext k n u).runState = .halted ↔ u.runState = .halted ∧ u.pc.toNat + n ≤ 255 := by
  rcases seqNext_cases k n u with ⟨hin, e⟩ | ⟨hout, e⟩
  · rw [e, setPc_runState, and_iff_left hin]
  · rw [e]
    exact iff_of_false nofun fun h => absurd h.2 (Nat.not_le.2 hout)

/-- SeqNext faults a running machine past the end of memory alone. -/
theorem seqNext_faulted {k : Opcode} {n : Nat} {u : State} (hr : u.runState = .running)
    (hf : (seqNext k n u).runState = .faulted) :
    u.pc.toNat + n > 255 ∧ seqNext k n u = faultedAs u .outOfBounds (opcodeByte u k) (u.pc.toNat + n) := by
  rcases seqNext_cases k n u with ⟨-, e⟩ | h
  · rw [e, setPc_runState, hr] at hf
    cases hf
  · exact h

/-- Where SeqNext does not fault, it does not write the record. -/
theorem seqNext_faultRecord {k : Opcode} {n : Nat} {u : State} (h : (seqNext k n u).runState ≠ .faulted) :
    (seqNext k n u).faultRecord = u.faultRecord := by
  rcases seqNext_cases k n u with ⟨-, e⟩ | ⟨-, e⟩
  · rw [e, setPc_faultRecord]
  · exact absurd (e ▸ rfl) h

/-! ### The ways a step faults -/

/-- The sequential instructions that have an effect before SeqNext (R71). -/
abbrev Effectful (k : Opcode) : Prop := k ∈ [Opcode.ldi, .add, .mul, .cmp, .prn, .push, .pop]

/-- With the two branches they are all the sequential instructions. -/
theorem mem_sequential {k : Opcode} (h : Effectful k ∨ k ∈ [Opcode.jeq, .jne]) :
    k ∈ [Opcode.ldi, .add, .mul, .cmp, .prn, .push, .pop, .jeq, .jne] :=
  (List.mem_append.2 h : k ∈ [Opcode.ldi, .add, .mul, .cmp, .prn, .push, .pop] ++ [Opcode.jeq, .jne])

/-- The ways a running machine's step faults: `StepFaults s t` when `t` is a Faulted state that a step of `s` leads to. -/
inductive StepFaults (s : State) : State → Prop where
  | unknownOpcode (name : s.nameAtPc = none) : StepFaults s (faultedAs s .unknownInstruction s.opcodeAtPc 0)
  | missingOperand (k : Opcode) (name : s.nameAtPc = some k) (outside : s.pc.toNat + k.operandCount > 255) :
      StepFaults s (faultedAs s .outOfBounds s.opcodeAtPc 256)
  | badRegister (k : Opcode) (b : Byte) (name : s.nameAtPc = some k) (bad : 7 < b.toNat) :
      StepFaults s (faultedAs s .badRegister s.opcodeAtPc b.toNat)
  | returnAddress (name : s.nameAtPc = some .call) (pc : s.pc.toNat = 254) :
      StepFaults s (faultedAs s .outOfBounds s.opcodeAtPc 256)
  | branchOverflow (k : Opcode) (name : s.nameAtPc = some k) (branch : k ∈ [Opcode.jeq, .jne])
      (last : s.pc.toNat + k.length = 256) : StepFaults s (faultedAs s .outOfBounds s.opcodeAtPc 256)
  /-- `u` is the state with the instruction's effects, which leave PC and the configuration alone. -/
  | overflow (k : Opcode) (u : State) (name : s.nameAtPc = some k) (effectful : Effectful k)
      (last : s.pc.toNat + k.length = 256) (pc : u.pc = s.pc) (config : u.config = s.config) :
      StepFaults s (faultedAs u .outOfBounds s.opcodeAtPc 256)

/-- An instruction fetched whole that overflows at its end stands at the end of memory: its next PC is 256. -/
theorem seqNext_faulted_at_end {s u : State} {k : Opcode} (hr : u.runState = .running) (hpc : u.pc = s.pc)
    (hop : opcodeByte u k = s.opcodeAtPc) (hin : s.pc.toNat + k.operandCount ≤ 255)
    (hf : (seqNext k k.length u).runState = .faulted) :
    s.pc.toNat + k.length = 256 ∧ seqNext k k.length u = faultedAs u .outOfBounds s.opcodeAtPc 256 := by
  obtain ⟨hout, e⟩ := seqNext_faulted hr hf
  have hlast : u.pc.toNat + k.length = 256 := by
    rw [hpc] at hout ⊢
    unfold Opcode.length at hout ⊢
    omega
  exact ⟨hpc ▸ hlast, by rw [e, hop, hlast]⟩

/-- The same, as a way to fault, for the seven instructions with effects. -/
theorem StepFaults.of_seqNext {s u : State} {k : Opcode} (name : s.nameAtPc = some k) (effectful : Effectful k)
    (hr : u.runState = .running) (hpc : u.pc = s.pc) (hconfig : u.config = s.config)
    (hop : opcodeByte u k = s.opcodeAtPc) (hin : s.pc.toNat + k.operandCount ≤ 255)
    (hf : (seqNext k k.length u).runState = .faulted) : StepFaults s (seqNext k k.length u) := by
  obtain ⟨hlast, e⟩ := seqNext_faulted_at_end hr hpc hop hin hf
  exact e ▸ .overflow k u name effectful hlast hpc hconfig

/-- The same for the two branches, which have changed nothing. -/
theorem StepFaults.of_branch {s : State} {k : Opcode} (name : s.nameAtPc = some k) (branch : k ∈ [Opcode.jeq, .jne])
    (hr : s.runState = .running) (hop : opcodeByte s k = s.opcodeAtPc) (hin : s.pc.toNat + k.operandCount ≤ 255)
    (hf : (seqNext k k.length s).runState = .faulted) : StepFaults s (seqNext k k.length s) := by
  obtain ⟨hlast, e⟩ := seqNext_faulted_at_end hr rfl hop hin hf
  exact e ▸ .branchOverflow k name branch hlast

/-- An instruction fetched whole faults on a bad register operand, on CALL's return address, or at its end. -/
theorem Ran.stepFaults {s t : State} {i : Instr} (h : Ran s i t) (hr : s.runState = .running)
    (hf : t.runState = .faulted) (name : s.nameAtPc = some i.opcode) (hop : opcodeByte s i.opcode = s.opcodeAtPc)
    (hin : s.pc.toNat + i.opcode.operandCount ≤ 255) : StepFaults s t := by
  cases h with
  | badRegister _ b _ bad => exact hop ▸ .badRegister _ b name bad
  | ldi | add | mul | cmp | prn | push | pop =>
    exact .of_seqNext name (by decide) hr rfl rfl hop hin hf
  | jeqNext | jneNext => exact .of_branch name (by decide) hr hop hin hf
  | callOutside ra outside =>
    have hoperand : s.pc.toNat + 1 ≤ 255 := hin
    have hpc : s.pc.toNat = 254 := by omega
    have hraise : raise .outOfBounds (opcodeByte s .call) (s.pc.toNat + 2) s =
        faultedAs s .outOfBounds s.opcodeAtPc 256 := by rw [hpc]; exact hop ▸ rfl
    exact hraise ▸ .returnAddress name hpc
  | jmp | jeqTaken | jneTaken | call | ret =>
    have hrunning : RunState.running = .faulted := hr.symm.trans hf
    cases hrunning
  | hlt => cases hf

/-- Every fault of a step is one of these. -/
theorem step_faulted {s t : State} (hr : s.runState = .running) (h : step s = .next t) (hf : t.runState = .faulted) :
    StepFaults s t := by
  rcases step_cases h with ⟨hstop, -⟩ | ⟨-, name, rfl⟩ | ⟨k, -, name, outside, rfl⟩ | ⟨i, -, name, hop, hin, hran⟩
  · exact absurd hr hstop
  · exact .unknownOpcode name
  · exact .missingOperand k name outside
  · exact hran.stepFaults hr hf name hop hin

/-! ### The statements about faults -/

/-- Settles O19: every way to fault writes PC and the opcode byte at it into the record, and leaves PC alone. -/
theorem everyFaultRecordsTheFailingInstruction : Obligations.EveryFaultRecordsTheFailingInstruction := by
  intro s t hr h hf
  cases step_faulted hr h hf with
  | overflow k u _ _ _ hpc => exact ⟨hpc, _, rfl, hpc, rfl⟩
  | _ => exact ⟨rfl, _, rfl, rfl, rfl⟩

/-- Settles O20: only the overflow of an instruction with effects leaves more than the fault. -/
theorem faultsArePreciseExceptSequentialOverflow : Obligations.FaultsArePreciseExceptSequentialOverflow := by
  intro s t hr h hf
  cases step_faulted hr h hf with
  | overflow k u name effectful last hpc => exact .inr ⟨k, name, last, effectful, hpc ▸ rfl⟩
  | _ => exact .inl rfl

/-- Settles O21: the ways to fault with OutOfBounds are a missing operand, a return address, and the two overflows. -/
theorem outOfBoundsComesFromThreePlaces : Obligations.OutOfBoundsComesFromThreePlaces := by
  intro s t r hr h hf hrec hkind
  cases step_faulted hr h hf with
  | unknownOpcode | badRegister => cases hrec; cases hkind
  | missingOperand k name outside => cases hrec; exact ⟨k, name, rfl, .inl outside⟩
  | returnAddress name hpc => cases hrec; exact ⟨.call, name, rfl, .inr (.inl ⟨rfl, hpc⟩)⟩
  | branchOverflow k name branch last =>
    cases hrec
    exact ⟨k, name, rfl, .inr (.inr ⟨mem_sequential (.inr branch), last⟩)⟩
  | overflow k u name effectful last =>
    cases hrec
    exact ⟨k, name, rfl, .inr (.inr ⟨mem_sequential (.inl effectful), last⟩)⟩

/-- Settles O22: the datapath raises what the ALU answers for `other`; no way to fault records that kind. -/
theorem unsupportedOperationIsNeverRaisedByAnInstruction :
    Obligations.UnsupportedOperationIsNeverRaisedByAnInstruction := by
  refine ⟨fun _ _ _ _ _ => rfl, fun s t r hr h hf hrec => ?_⟩
  cases step_faulted hr h hf <;> cases hrec <;> exact FaultKind.noConfusion

/-! ### Halting -/

theorem eq_hlt_of_opcode {i : Instr} (h : i.opcode = .hlt) : i = .hlt := by
  cases i <;> cases h
  rfl

/-- A running machine's instruction halts it exactly when it is HLT. -/
theorem Ran.halted_iff {s t : State} {i : Instr} (h : Ran s i t) (hr : s.runState = .running) :
    t.runState = .halted ↔ i.opcode = .hlt := by
  cases h with
  | badRegister _ b hb =>
    refine iff_of_false nofun fun hhlt => ?_
    cases eq_hlt_of_opcode hhlt
    cases hb
  | hlt => exact iff_of_true rfl rfl
  | _ => simp [hr, Instr.opcode]

/-- Settles O26: a fetch fault halts nothing, and HLT has no operand whose fetch could fault. -/
theorem onlyHltHalts : Obligations.OnlyHltHalts := by
  intro s t hr h
  rcases step_cases h with ⟨hstop, -⟩ | ⟨-, name, rfl⟩ | ⟨k, -, name, outside, rfl⟩ | ⟨i, -, name, -, -, hran⟩
  · exact absurd hr hstop
  · exact iff_of_false nofun fun hhlt => by cases name.symm.trans hhlt
  · refine iff_of_false nofun fun hhlt => ?_
    cases name.symm.trans hhlt
    exact absurd outside (Nat.not_lt.2 (Nat.le_of_lt_succ s.pc.isLt))
  · rw [hran.halted_iff hr]
    exact ⟨fun hi => hi ▸ name, fun hhlt => Option.some.inj (name.symm.trans hhlt)⟩

/-! ### The invariant -/

namespace Ran

variable {s t : State} {i : Instr}

/-- An instruction keeps memory canonical. -/
theorem mem_wf (h : Ran s i t) (hm : s.mem.wf) : t.mem.wf := by
  cases h with
  | push ra => rw [seqNext_mem]; exact pushByte_wf hm _
  | call ra => exact pushByte_wf hm _
  | _ => simpa using hm

/-- After an instruction at most one flag is set: exactly one after CMP, and the old ones after any other. -/
theorem flags_atMostOne (h : Ran s i t) (hflags : s.flags.atMostOne) : t.flags.atMostOne := by
  cases h with
  | cmp ra rb => rw [seqNext_flags]; exact Nat.le_of_eq (compareFlags_exactly_one ..)
  | _ => simpa using hflags

theorem config_eq (h : Ran s i t) : t.config = s.config := by
  cases h <;> simp

/-- An instruction that does not fault does not write the record. -/
theorem faultRecord_eq (h : Ran s i t) (hf : t.runState ≠ .faulted) : t.faultRecord = s.faultRecord := by
  cases h with
  | badRegister | callOutside => exact absurd rfl hf
  | jmp | jeqTaken | jneTaken | call | ret | hlt => rfl
  | _ => exact seqNext_faultRecord hf

end Ran

/-- A record of OutOfBounds is consistent at address 256 for an opcode byte that decodes. -/
theorem consistent_outOfBounds {m : OpcodeMap} {pc opcode : Byte} {k : Opcode} (h : opcodeOf m opcode = some k) :
    FaultRecord.consistent m pc ⟨.outOfBounds, pc, opcode, 256⟩ :=
  And.intro rfl ⟨rfl, Option.isSome_iff_exists.2 ⟨k, h⟩⟩

/-- Every way to fault leaves a record that fits its kind and names the instruction at PC. -/
theorem StepFaults.consistent {s t : State} (h : StepFaults s t) :
    ∃ r, t.faultRecord = some r ∧ r.consistent t.config.opcodes t.pc := by
  cases h with
  | unknownOpcode name => exact ⟨_, rfl, And.intro rfl ⟨rfl, name⟩⟩
  | badRegister k b name bad =>
    exact ⟨_, rfl, And.intro rfl ⟨bad, Nat.le_of_lt_succ b.isLt, Option.isSome_iff_exists.2 ⟨k, name⟩⟩⟩
  | missingOperand k name | branchOverflow k name | returnAddress name => exact ⟨_, rfl, consistent_outOfBounds name⟩
  | overflow k u name _ _ _ config =>
    have hname : opcodeOf u.config.opcodes s.opcodeAtPc = some k := config.symm ▸ name
    exact ⟨_, rfl, consistent_outOfBounds hname⟩

/-- Settles O33: a fault's record is consistent however the step faults, and every other part of the invariant is kept by each
way an instruction runs. -/
theorem everyStepKeepsTheInvariant : Obligations.EveryStepKeepsTheInvariant := by
  intro s t hinv h
  refine ⟨⟨?_, ?_, ?_, fun hf => ?_⟩, ?_⟩
  · exact step_induction h (P := fun t => t.mem.wf) hinv.memory (fun _ _ _ => hinv.memory)
      fun _ _ _ hran => hran.mem_wf hinv.memory
  · exact step_induction h (P := fun t => t.flags.atMostOne) hinv.flags (fun _ _ _ => hinv.flags)
      fun _ _ _ hran => hran.flags_atMostOne hinv.flags
  · refine step_induction h (P := fun t => t.runState ≠ .faulted → t.faultRecord = none) hinv.empty
      (fun _ _ _ hf => absurd rfl hf) fun _ hr _ hran hf => ?_
    rw [hran.faultRecord_eq hf]
    exact hinv.empty (hr ▸ nofun)
  · by_cases hr : s.runState = .running
    · exact (step_faulted hr h hf).consistent
    · cases (step_of_stopped hr).symm.trans h
      exact hinv.written hf
  · exact step_induction h (P := fun t => t.config = s.config) rfl (fun _ _ _ => rfl) fun _ _ _ hran => hran.config_eq

end Sys2Proof.Machine
end
